-- ==== Sys2Proof/Word.lean ====
section
/-! DEFINITION. The word types of the engine (spec 00_scope.md R7, R10, R53).
A byte string `Bytes(n)` is held as the bit vector of width `8 n` whose most significant byte is byte 0:
"byte 0 of a string is its most significant byte when the string is read as a number" (R53). -/

namespace Sys2Proof

/-- A byte, R10. -/
abbrev Byte := BitVec 8
/-- A 32-bit register, command word or bus value. -/
abbrev Word := BitVec 32
/-- `Bytes(8)`: a cipher block, a single-length DES key, a KeyHalf (R7). -/
abbrev Block := BitVec 64
/-- `Bytes(10)`: a KSN, a KSI or a KSN-shaped register (R7). -/
abbrev Ksn := BitVec 80
/-- `Bytes(16)`: a double-length key (R7). -/
abbrev Key := BitVec 128
/-- `Bytes(24)`: a TripleDESKey (R7). -/
abbrev TripleKey := BitVec 192

end Sys2Proof
end

