-- ==== Sys2Proof/Config.lean ====
section
/-! DEFINITION. What this hardware fixes (spec 00_scope.md R8, R9) and the values the spec leaves open. -/

namespace Sys2Proof

/-- The four mask and variant constants of R9, together, "so that an audited value could be substituted" (93 I12). -/
structure Masks where
  /-- `MASK_KSN_IPEK`, 8 bytes -/
  ksnIpek : Block
  /-- `MASK_BDK_IPEK`, 16 bytes -/
  bdkIpek : Key
  /-- `MASK_NRKGP`, 16 bytes -/
  nrkgp : Key
  /-- `VARIANT_DATA`, 16 bytes -/
  variantData : Key
  deriving DecidableEq, Repr

/-- The document's literals, which this hardware takes exactly (R9). -/
def Config.masks : Masks where
  ksnIpek     := 0xFFFFFFFFFFFFFFE0#64
  bdkIpek     := 0xC0C0C0C0C0C0C0C0C0C0C0C000000000#128
  nrkgp       := 0xC0C0C0C0C0C0C0C0C0C0C0C0C0C0C0C0#128
  variantData := 0x00000000000000FF00000000000000FF#128

/-- `DATA_BYTES` of this build (R8). `State.reset` puts it into DATABYTES; every rule reads DATABYTES, so a
statement over every state covers every legal build. -/
def Config.dataBytes : Nat := 4096

/-- Which 64 KiB block of the host's address space the platform gives the window: OPEN (R8, R51, 93 I5). DESIGN CHOICE: log entry 6. -/
opaque Config.windowIndex : Nat

/-- `WINDOW_BASE`: OPEN, "which the platform aligns to 65,536 bytes" (R51). -/
def Config.windowBase : Nat := Config.windowIndex * 0x10000

/-- The value of the `n`-th unspecified read (R59, 93 I1): "A fresh draw of the access width at each read".
Uninterpreted. DESIGN CHOICE: log entry 4. -/
opaque Config.freeRead : Nat → Word

end Sys2Proof
end

