-- ==== Sys2Proof/Machine/State.lean ====
section
/-! DEFINITION. The state of the engine (spec 10_state.md R21), the events that drive it (R20, 60_exceptions.md R222)
and the reasons a step can stop. -/

namespace Sys2Proof.Machine

/-- DATA's written bytes: (index in DATA, byte), indices strictly rising. An index that is not listed has not
been written and holds no value (R36, 93 I2; DEDUCED, safe: log entry 2). Index `i` is window offset `0x1000 + i`. -/
abbrev Memory := List Host.Cell

/-- What a host access does (R14). The low `8 n` bits of `v` are the value written. -/
inductive AccessOp where
  | read
  | write (v : Word)
  deriving DecidableEq, Repr

/-- One host access, `MemRead(off, n)` or `MemWrite(off, n, v)` (R14). -/
structure Access where
  offset : Nat
  width : Nat
  op : AccessOp
  deriving DecidableEq, Repr

/-- What moves next: the spec leaves the order of the engine step, the host accesses and reset free
(R222, 93 I4, I11), so the state carries it as data (DESIGN CHOICE: log entry 1). -/
inductive Event where
  /-- the engine takes its step (R41); nothing when no command is pending (R39) -/
  | engine
  /-- a host access at a window offset (R14) -/
  | access (a : Access)
  /-- a host access at a host address, of `width` bytes (R51) -/
  | busCycle (addr width : Nat) (op : AccessOp)
  /-- the platform asserts and releases reset (R250) -/
  | reset
  /-- power is lost (R235, 93 I13) -/
  | powerLoss
  deriving DecidableEq, Repr

/-- Why a run stops. Command errors are not here: they complete the command with a code in STATUS (R211). -/
inductive Fault where
  /-- A host access that is a bus error (R58), raised by `hostAccess`, as 93 I10 says ("a host script that makes
  such an access faults in the model"). Safe: the block itself changes nothing and answers an error. -/
  | busError (offset width : Nat)
  /-- A DATA byte that nothing has written was read, by the host (`memRead`) or as plaintext of ECB or ENCRYPT
  (`ecbInPlace`), as 93 I2 says. Safe: "Silicon returns some value, so the fault errs safe". -/
  | unwrittenData (index : Nat)
  /-- Power is off: "while power is off the block takes no step" (R235, 93 I13), raised by `handleEvent`. Safe. -/
  | powerOff
  deriving DecidableEq, Repr

/-- Instructions without a meaning. -/
inductive Refusal where
  /-- raised by `exec` for a command whose meaning is not written; no arm does. Safe. -/
  | notModelled (mnemonic : String)
  deriving DecidableEq, Repr

/-- The whole state. Every field up to `pending` is a row of R21; `schedule`, `draws` and `readData` are the
model's own. -/
structure State where
  /-- STATUS, R23 -/
  status : Word
  /-- CTRL, R25 -/
  ctrl : Word
  /-- BDK_LEN, R26 -/
  bdkLen : Word
  /-- KSN_LEN, R27 -/
  ksnLen : Word
  /-- PT_LEN, R28 -/
  ptLen : Word
  /-- CT_LEN, R29 -/
  ctLen : Word
  /-- CTR, R30 -/
  ctr : Word
  /-- DATABYTES, R31: the build's DATA_BYTES; nothing writes it -/
  dataBytes : Word
  /-- BDK, R32 -/
  bdk : Key
  /-- KSN, R33 -/
  ksn : Ksn
  /-- K, R34 -/
  k : Key
  /-- TK, R35 -/
  tk : TripleKey
  /-- DATA, R36 -/
  data : Memory
  /-- KSI, R37 -/
  ksi : Ksn
  /-- REG, R38 -/
  reg : Ksn
  /-- pending, R39: the command word issued and not yet completed -/
  pending : Option Word
  /-- what moves next, first first (DESIGN CHOICE: log entry 1) -/
  schedule : List Event
  /-- how many unspecified reads have been made (R59; DESIGN CHOICE: log entry 4) -/
  draws : Nat
  /-- the value the block last returned to a host read (DESIGN CHOICE: log entry 5) -/
  readData : Word
  deriving DecidableEq, Repr

/-- The reset state of R250. `schedule`, `draws` and `readData` are the model's own (log entries 1, 4, 5). -/
def State.reset : State where
  status := 0
  ctrl := 0
  bdkLen := 0
  ksnLen := 0
  ptLen := 0
  ctLen := 0
  ctr := 0
  dataBytes := BitVec.ofNat 32 Config.dataBytes
  bdk := 0
  ksn := 0
  k := 0
  tk := 0
  data := []
  ksi := 0
  reg := 0
  pending := none
  schedule := []
  draws := 0
  readData := 0

/-- The three outcomes of a step of this machine. -/
abbrev Result := Host.Outcome State Fault Refusal

end Sys2Proof.Machine
end

