-- ==== Sys2Proof/Machine/Flags.lean ====
section
/-! DEFINITION. The STATUS fields (spec 10_state.md R23, R24), the error codes (60_exceptions.md R210), CTRL.IE and
the interrupt line (R25, R40). -/

namespace Sys2Proof.Machine

/-- The errors a command can end with (R210). CIPHER (code 3) is "never raised" and codes 7 to 15 are "never
written", so none of them is here (93 I8, I9). -/
inductive CmdError where
  | bdkLen
  | ksnLen
  | illegal
  | badPos
  | ptLen
  deriving DecidableEq, Repr

/-- The 4-bit code of an error (R210). -/
def CmdError.code : CmdError → BitVec 4
  | .bdkLen => 1
  | .ksnLen => 2
  | .illegal => 4
  | .badPos => 5
  | .ptLen => 6

/-! ### Reading STATUS and CTRL -/

def Status.busy (st : Word) : Bool := st.getLsbD 0
def Status.done (st : Word) : Bool := st.getLsbD 1
def Status.err (st : Word) : Bool := st.getLsbD 2
def Status.ovr (st : Word) : Bool := st.getLsbD 3
def Status.errCode (st : Word) : BitVec 4 := st.extractLsb' 8 4

/-- CTRL.IE (R25). -/
def interruptEnabled (s : State) : Bool := s.ctrl.getLsbD 0

/-- The interrupt output: "`irq = CTRL.IE and STATUS.DONE` at all times" (R40). -/
def irq (s : State) : Bool := interruptEnabled s && Status.done s.status

/-! ### Writing STATUS. Bits 0, 1, 2 and 11:8 are BUSY, DONE, ERR, ERRCODE; bit 3 is OVR. -/

/-- BUSY, DONE, ERR and ERRCODE. -/
def Status.completionMask : Word := 0x00000F07

/-- At issue: BUSY <- 1, DONE <- 0, ERR <- 0, ERRCODE <- 0 (R39). -/
def Status.issue (st : Word) : Word := (st &&& ~~~Status.completionMask) ||| 0x00000001

/-- Completion without an error: DONE <- 1, ERR <- 0, ERRCODE <- 0, BUSY <- 0 (R41 (3), (4)). -/
def Status.complete (st : Word) : Word := (st &&& ~~~Status.completionMask) ||| 0x00000002

/-- Completion with an error: DONE <- 1, ERR <- 1, ERRCODE <- code, BUSY <- 0 (R41 (2), (4)). -/
def Status.fail (st : Word) (e : CmdError) : Word :=
  (st &&& ~~~Status.completionMask) ||| 0x00000006 ||| (e.code.setWidth 32 <<< 8)

/-- A dropped write: OVR <- 1 (R57). -/
def Status.setOvr (st : Word) : Word := st ||| 0x00000008

/-- A host write of `v`: bit 1 clears DONE, ERR and ERRCODE, bit 3 clears OVR (R24). -/
def Status.hostWrite (st v : Word) : Word :=
  let st' := if v.getLsbD 1 then st &&& ~~~0x00000F06#32 else st
  if v.getLsbD 3 then st' &&& ~~~0x00000008#32 else st'

end Sys2Proof.Machine
end

