-- ==== Sys2Proof/Syntax.lean ====
section
/-! DEFINITION. The twelve commands of the opcode map (spec 30_encoding.md R83), one constructor per row. -/

namespace Sys2Proof

inductive Instr where
  /-- R200 -/
  | nop
  /-- R123 -/
  | extksi
  /-- R124 -/
  | extctr
  /-- R125; `pos` is the POS field, an unsigned bit position 0 to 31 (R82) -/
  | bldreg (pos : Nat)
  /-- R143 -/
  | ipek
  /-- R152 -/
  | nrkgp
  /-- R153 -/
  | walk
  /-- R172 -/
  | variant
  /-- R173 -/
  | norm
  /-- R181 -/
  | ecb
  /-- R182 -/
  | encrypt
  /-- R201 -/
  | zeroize
  deriving DecidableEq, Repr

end Sys2Proof
end

