-- ==== Sys2Proof/WellFormed.lean ====
section
/-! DEFINITION. Which instructions have a command word (spec 30_encoding.md R80, R82): POS has five bits. -/

namespace Sys2Proof

/-- The only operand is POS, "an unsigned bit position 0 to 31" (R82). BLDREG 21 to 31 are command words
(they end with BADPOS), so they are well formed. -/
def Instr.wf : Instr → Bool
  | .nop => true
  | .extksi => true
  | .extctr => true
  | .bldreg pos => pos ≤ 31
  | .ipek => true
  | .nrkgp => true
  | .walk => true
  | .variant => true
  | .norm => true
  | .ecb => true
  | .encrypt => true
  | .zeroize => true

abbrev Instr.WellFormed (i : Instr) : Prop := i.wf = true

end Sys2Proof
end

