-- ==== Sys2Proof/Decode.lean ====
section
/-! DEFINITION. Decoding and encoding command words (spec 30_encoding.md R80 to R86), and the byte order of
`be` and `be_n` (00_scope.md R11, 20_memory.md R54). -/

namespace Sys2Proof

/-- `be(b)`: the unsigned integer whose big-endian encoding is `b` (R11). -/
def be (bs : List Byte) : Nat := bs.foldl (fun acc b => 256 * acc + b.toNat) 0

/-- Byte `j` of `be_n(v)`, `v` a bus value (R11, R54). -/
def beByte (n : Nat) (v : Word) (j : Nat) : Byte := v.extractLsb' (8 * (n - 1 - j)) 8

/-- `be_n(v)`, all `n` bytes, byte 0 first. -/
def beBytes (n : Nat) (v : Word) : List Byte := (List.range n).map (beByte n v)

/-! ### The fields of a command word, R80 -/

def opField (w : Word) : Byte := w.extractLsb' 0 8
def posField (w : Word) : BitVec 5 := w.extractLsb' 8 5
def rsvdField (w : Word) : BitVec 19 := w.extractLsb' 13 19

/-- Why a word is no command. Every one of them completes with error ILLEGAL (R85). -/
inductive DecodeError where
  /-- fewer than four bytes: not a 32-bit word (R81) -/
  | truncated
  /-- RSVD is not 0 -/
  | reservedBits
  /-- OP is none of the twelve of R83 -/
  | unassignedOp
  /-- POS is not 0 and OP is not 0x03 -/
  | posNotZero
  deriving DecidableEq, Repr

/-- The command an OP value stands for (R83), with POS as BLDREG's operand. -/
def instrOfOp (op : Byte) (pos : Nat) : Option Instr :=
  if op = 0x00 then some .nop
  else if op = 0x01 then some .extksi
  else if op = 0x02 then some .extctr
  else if op = 0x03 then some (.bldreg pos)
  else if op = 0x10 then some .ipek
  else if op = 0x20 then some .nrkgp
  else if op = 0x21 then some .walk
  else if op = 0x30 then some .variant
  else if op = 0x31 then some .norm
  else if op = 0x40 then some .ecb
  else if op = 0x41 then some .encrypt
  else if op = 0xF0 then some .zeroize
  else none

/-- `decode(w)` of R84, in its order: RSVD, then OP, then POS. -/
def decodeWord (w : Word) : Except DecodeError Instr :=
  if rsvdField w ≠ 0 then .error .reservedBits
  else match instrOfOp (opField w) (posField w).toNat with
    | none => .error .unassignedOp
    | some i => if opField w ≠ 0x03 ∧ posField w ≠ 0 then .error .posNotZero else .ok i

/-- Decoding the bytes of a command as they lie in the four lanes of CMD, the most significant first (R54);
answers the instruction and the bytes after it. -/
def decodeBytes : List Byte → Except DecodeError (Instr × List Byte)
  | b0 :: b1 :: b2 :: b3 :: rest =>
    match decodeWord (BitVec.ofNat 32 (be [b0, b1, b2, b3])) with
    | .ok i => .ok (i, rest)
    | .error e => .error e
  | _ => .error .truncated

/-! ### Encoding -/

/-- The command word (R83, R86): "`BLDREG <pos>` assembles to `0x00000003 | (pos << 8)`". -/
def encode : Instr → Word
  | .nop => 0x00000000
  | .extksi => 0x00000001
  | .extctr => 0x00000002
  | .bldreg pos => 0x00000003 ||| (BitVec.ofNat 32 pos <<< 8)
  | .ipek => 0x00000010
  | .nrkgp => 0x00000020
  | .walk => 0x00000021
  | .variant => 0x00000030
  | .norm => 0x00000031
  | .ecb => 0x00000040
  | .encrypt => 0x00000041
  | .zeroize => 0x000000F0

/-- The command's bytes in CMD's lanes. -/
def encodeBytes (i : Instr) : List Byte := beBytes 4 (encode i)

/-! ### The opcode map as data, R83 -/

/-- One row of the opcode map: a word is this row's when `w &&& mask = pattern`. -/
structure OpcodeRow where
  pattern : Word
  mask : Word
  deriving DecidableEq, Repr

/-- The row of a command (R83's match and mask columns). -/
def opcodeRow : Instr → OpcodeRow
  | .nop => ⟨0x00000000, 0xFFFFFFFF⟩
  | .extksi => ⟨0x00000001, 0xFFFFFFFF⟩
  | .extctr => ⟨0x00000002, 0xFFFFFFFF⟩
  | .bldreg _ => ⟨0x00000003, 0xFFFFE0FF⟩
  | .ipek => ⟨0x00000010, 0xFFFFFFFF⟩
  | .nrkgp => ⟨0x00000020, 0xFFFFFFFF⟩
  | .walk => ⟨0x00000021, 0xFFFFFFFF⟩
  | .variant => ⟨0x00000030, 0xFFFFFFFF⟩
  | .norm => ⟨0x00000031, 0xFFFFFFFF⟩
  | .ecb => ⟨0x00000040, 0xFFFFFFFF⟩
  | .encrypt => ⟨0x00000041, 0xFFFFFFFF⟩
  | .zeroize => ⟨0x000000F0, 0xFFFFFFFF⟩

/-- All twelve rows. -/
def opcodeTable : List OpcodeRow :=
  [Instr.nop, .extksi, .extctr, .bldreg 0, .ipek, .nrkgp, .walk, .variant, .norm, .ecb, .encrypt, .zeroize].map
    opcodeRow

/-! ### The host's table words -/

/-- The 32-bit word the host's table bits stand for: bit 0 is the word's least significant bit, and bits above
`nbits` are 0. -/
def tableWord (nbits w : Nat) : Word := BitVec.ofNat 32 (w % 2 ^ nbits)

/-- What the decoder reads from a table row's bits. Every command is exactly one 32-bit word (R81). -/
def decodeTableWord (nbits w : Nat) : Option Instr :=
  if nbits ≤ 32 then
    match decodeBytes (beBytes 4 (tableWord nbits w)) with
    | .ok (i, _) => some i
    | .error _ => none
  else none

end Sys2Proof
end

