-- ==== Sys2Proof/Machine/Operands.lean ====
section
/-! DEFINITION. The operand forms: bytes and slices of byte-string registers (spec 00_scope.md R10 to R12), the padded
length (R12), and byte strings as lists. -/

namespace Sys2Proof.Machine

/-- `b[i]`: byte `i` from the left of a byte string held in `w` bits (R10, R53). -/
def byteAt {w : Nat} (b : BitVec w) (i : Nat) : Byte := b.extractLsb' (w - 8 * (i + 1)) 8

/-- `b` with `b[i] <- v`. -/
def setByte {w : Nat} (b : BitVec w) (i : Nat) (v : Byte) : BitVec w :=
  (b &&& ~~~((0xFF#8).setWidth w <<< (w - 8 * (i + 1)))) ||| (v.setWidth w <<< (w - 8 * (i + 1)))

/-- `b[i .. i + m/8)` as a string of `m` bits (R10). -/
def slice {w : Nat} (m : Nat) (b : BitVec w) (i : Nat) : BitVec m := b.extractLsb' (w - 8 * i - m) m

/-- The left KeyHalf, `k[0..8)` (R34). -/
def leftHalf (k : Key) : Block := slice 64 k 0
/-- The right KeyHalf, `k[8..16)` (R34). -/
def rightHalf (k : Key) : Block := slice 64 k 8

/-- `register[last 8 bytes]`, `r[2..10)` (R38, R151). -/
def lastEight (r : Ksn) : Block := slice 64 r 2

/-- "`ceil8(n)` is the least multiple of 8 that is at least n" (R12). -/
def ceil8 (n : Nat) : Nat := (n + 7) / 8 * 8

/-- An 8-byte block as a list of bytes, byte 0 first. -/
def blockBytes (x : Block) : List Byte := (List.range 8).map (byteAt x)

/-- `buf[8i .. 8i+8)` as a block (R180). -/
def blockOf (buf : List Byte) (i : Nat) : Block := BitVec.ofNat 64 (be ((buf.drop (8 * i)).take 8))

end Sys2Proof.Machine
end

