-- ==== Sys2Proof/Machine/Ops.lean ====
section
/-! DEFINITION. The shared operations: DATA (spec 10_state.md R36), issuing and completing a command (R39, R41), ending
one with an error (60_exceptions.md R211), the checks (R212), and reset (70_reset_and_hazards.md R250).

The engine has no traps (R223, R224). What stands in a trap's place is `raiseCmdError`, the one way a command error is
reported; there is no return from it, the host acknowledges by writing STATUS (`Status.hostWrite`). -/

namespace Sys2Proof.Machine

/-! ### DATA -/

/-- The value of DATA byte `i`; none where nothing has written it (93 I2). -/
def Memory.read : Memory → Nat → Option Byte
  | [], _ => none
  | (x, v) :: m, i => if x = i then some v else Memory.read m i

/-- Write one byte, keeping the indices strictly rising. -/
def Memory.write : Memory → Nat → Byte → Memory
  | [], i, b => [(i, b)]
  | (x, v) :: m, i, b =>
    if i < x then (i, b) :: (x, v) :: m
    else if i = x then (i, b) :: m
    else (x, v) :: Memory.write m i b

/-- Write a string of bytes from index `i` up. -/
def Memory.writeRange : Memory → Nat → List Byte → Memory
  | m, _, [] => m
  | m, i, b :: bs => Memory.writeRange (Memory.write m i b) (i + 1) bs

/-- The `n` bytes from index `i` up, or the first index among them that nothing has written. -/
def Memory.readRange (m : Memory) : Nat → Nat → Except Nat (List Byte)
  | _, 0 => .ok []
  | i, n + 1 =>
    match Memory.read m i with
    | none => .error i
    | some b =>
      match Memory.readRange m (i + 1) n with
      | .error j => .error j
      | .ok bs => .ok (b :: bs)

/-- `n` zero bytes from index `i` up. -/
def Memory.zerosFrom : Nat → Nat → Memory
  | _, 0 => []
  | i, n + 1 => (i, 0) :: Memory.zerosFrom (i + 1) n

/-- The indices are strictly rising, all at least `lo`. -/
def Memory.risingFrom : Nat → Memory → Bool
  | _, [] => true
  | lo, (x, _) :: m => decide (lo ≤ x) && Memory.risingFrom (x + 1) m

/-- The canonical form: indices strictly rising. No entry can equal what an unlisted index reads as, since that is
no value at all. -/
def Memory.wf (m : Memory) : Bool := Memory.risingFrom 0 m

/-- Every index lies in DATA, which has `size` bytes. -/
def Memory.within (size : Nat) (m : Memory) : Bool := m.all (fun c => decide (c.1 < size))

/-! ### A command's life -/

/-- A CMD write of `w` with nothing pending (R39). -/
def issueCommand (w : Word) (s : State) : State :=
  { s with status := Status.issue s.status, pending := some w }

/-- Completion without an error (R41 (3), (4)); the caller has written the results. -/
def completeCommand (s : State) : State :=
  { s with status := Status.complete s.status, pending := none }

/-- Completion with an error: "no other register changes" (R41 (2), (4), R211). -/
def raiseCmdError (e : CmdError) (s : State) : State :=
  { s with status := Status.fail s.status e, pending := none }

/-- A host write dropped because a command is pending sets only OVR (R57, R214). -/
def dropWrite (s : State) : State := { s with status := Status.setOvr s.status }

/-! ### The checks of R212. Each goes on with `k` where it passes. -/

/-- `BDK_LEN != 16` ends with error BDK_LEN (R26). -/
def requireBdkLen (s : State) (k : Result) : Result :=
  if s.bdkLen ≠ 16 then .next (raiseCmdError .bdkLen s) else k

/-- `KSN_LEN != 10` ends with error KSN_LEN (R27). -/
def requireKsnLen (s : State) (k : Result) : Result :=
  if s.ksnLen ≠ 10 then .next (raiseCmdError .ksnLen s) else k

/-- `PT_LEN > DATA_BYTES` ends with error PT_LEN (R28). -/
def requirePtLen (s : State) (k : Result) : Result :=
  if s.ptLen.toNat > s.dataBytes.toNat then .next (raiseCmdError .ptLen s) else k

/-! ### Reset -/

/-- The block after reset (R250): every register at its reset value and DATA unwritten; DATABYTES is "a constant,
not reset". The model's own fields go on (DESIGN CHOICE: log entry 11). -/
def resetBlock (s : State) : State :=
  { State.reset with
    dataBytes := s.dataBytes, schedule := s.schedule, draws := s.draws, readData := s.readData }

end Sys2Proof.Machine
end

