-- ==== Sys2Proof/Machine/Control.lean ====
section
/-! DEFINITION. The control commands: NOP, ZEROIZE (spec 46_control.md). -/

namespace Sys2Proof.Machine

/-- NOP (R200): nothing but completion. -/
def execNop (s : State) : Result := .next (completeCommand s)

/-- ZEROIZE (R201): every data register 0 and every DATA byte written with 0. STATUS.OVR, CTRL and DATABYTES stay. -/
def execZeroize (s : State) : Result :=
  .next (completeCommand
    { s with
      bdk := 0, ksn := 0, k := 0, tk := 0, ksi := 0, reg := 0
      data := Memory.zerosFrom 0 s.dataBytes.toNat
      bdkLen := 0, ksnLen := 0, ptLen := 0, ctLen := 0, ctr := 0 })

end Sys2Proof.Machine
end

