-- ==== Sys2Proof/Machine/Des.lean ====
section
/-! DEFINITION. The cipher primitives: single DES and triple-length DES (spec 40_cipher_primitives.md R100 to R107).
The tables are the spec's, row by row. -/

namespace Sys2Proof.Machine

/-! ### Tables -/

/-- PC-1, permuted choice 1, 64 to 56 bits (R102). -/
def pc1 : List Nat :=
   [57, 49, 41, 33, 25, 17, 9] ++
   [1, 58, 50, 42, 34, 26, 18] ++
   [10, 2, 59, 51, 43, 35, 27] ++
   [19, 11, 3, 60, 52, 44, 36] ++
   [63, 55, 47, 39, 31, 23, 15] ++
   [7, 62, 54, 46, 38, 30, 22] ++
   [14, 6, 61, 53, 45, 37, 29] ++
   [21, 13, 5, 28, 20, 12, 4]

/-- PC-2, permuted choice 2, 56 to 48 bits (R102). -/
def pc2 : List Nat :=
   [14, 17, 11, 24, 1, 5] ++
   [3, 28, 15, 6, 21, 10] ++
   [23, 19, 12, 4, 26, 8] ++
   [16, 7, 27, 20, 13, 2] ++
   [41, 52, 31, 37, 47, 55] ++
   [30, 40, 51, 45, 33, 48] ++
   [44, 49, 39, 56, 34, 53] ++
   [46, 42, 50, 36, 29, 32]

/-- E, expansion, 32 to 48 bits (R103). -/
def expansion : List Nat :=
   [32, 1, 2, 3, 4, 5] ++
   [4, 5, 6, 7, 8, 9] ++
   [8, 9, 10, 11, 12, 13] ++
   [12, 13, 14, 15, 16, 17] ++
   [16, 17, 18, 19, 20, 21] ++
   [20, 21, 22, 23, 24, 25] ++
   [24, 25, 26, 27, 28, 29] ++
   [28, 29, 30, 31, 32, 1]

/-- P, 32 to 32 bits (R103). -/
def roundPermutation : List Nat :=
   [16, 7, 20, 21, 29, 12, 28, 17] ++
   [1, 15, 23, 26, 5, 18, 31, 10] ++
   [2, 8, 24, 14, 32, 27, 3, 9] ++
   [19, 13, 30, 6, 22, 11, 4, 25]

/-- IP, 64 to 64 bits (R104). -/
def initialPermutation : List Nat :=
   [58, 50, 42, 34, 26, 18, 10, 2] ++
   [60, 52, 44, 36, 28, 20, 12, 4] ++
   [62, 54, 46, 38, 30, 22, 14, 6] ++
   [64, 56, 48, 40, 32, 24, 16, 8] ++
   [57, 49, 41, 33, 25, 17, 9, 1] ++
   [59, 51, 43, 35, 27, 19, 11, 3] ++
   [61, 53, 45, 37, 29, 21, 13, 5] ++
   [63, 55, 47, 39, 31, 23, 15, 7]

/-- FP, 64 to 64 bits (R104). -/
def finalPermutation : List Nat :=
   [40, 8, 48, 16, 56, 24, 64, 32] ++
   [39, 7, 47, 15, 55, 23, 63, 31] ++
   [38, 6, 46, 14, 54, 22, 62, 30] ++
   [37, 5, 45, 13, 53, 21, 61, 29] ++
   [36, 4, 44, 12, 52, 20, 60, 28] ++
   [35, 3, 43, 11, 51, 19, 59, 27] ++
   [34, 2, 42, 10, 50, 18, 58, 26] ++
   [33, 1, 41, 9, 49, 17, 57, 25]

/-- S1, rows 0 to 3, columns 0 to 15 (R103). -/
def sBox1 : List (List Nat) :=
  [[14, 4, 13, 1, 2, 15, 11, 8, 3, 10, 6, 12, 5, 9, 0, 7],
   [0, 15, 7, 4, 14, 2, 13, 1, 10, 6, 12, 11, 9, 5, 3, 8],
   [4, 1, 14, 8, 13, 6, 2, 11, 15, 12, 9, 7, 3, 10, 5, 0],
   [15, 12, 8, 2, 4, 9, 1, 7, 5, 11, 3, 14, 10, 0, 6, 13]]

/-- S2, rows 0 to 3, columns 0 to 15 (R103). -/
def sBox2 : List (List Nat) :=
  [[15, 1, 8, 14, 6, 11, 3, 4, 9, 7, 2, 13, 12, 0, 5, 10],
   [3, 13, 4, 7, 15, 2, 8, 14, 12, 0, 1, 10, 6, 9, 11, 5],
   [0, 14, 7, 11, 10, 4, 13, 1, 5, 8, 12, 6, 9, 3, 2, 15],
   [13, 8, 10, 1, 3, 15, 4, 2, 11, 6, 7, 12, 0, 5, 14, 9]]

/-- S3, rows 0 to 3, columns 0 to 15 (R103). -/
def sBox3 : List (List Nat) :=
  [[10, 0, 9, 14, 6, 3, 15, 5, 1, 13, 12, 7, 11, 4, 2, 8],
   [13, 7, 0, 9, 3, 4, 6, 10, 2, 8, 5, 14, 12, 11, 15, 1],
   [13, 6, 4, 9, 8, 15, 3, 0, 11, 1, 2, 12, 5, 10, 14, 7],
   [1, 10, 13, 0, 6, 9, 8, 7, 4, 15, 14, 3, 11, 5, 2, 12]]

/-- S4, rows 0 to 3, columns 0 to 15 (R103). -/
def sBox4 : List (List Nat) :=
  [[7, 13, 14, 3, 0, 6, 9, 10, 1, 2, 8, 5, 11, 12, 4, 15],
   [13, 8, 11, 5, 6, 15, 0, 3, 4, 7, 2, 12, 1, 10, 14, 9],
   [10, 6, 9, 0, 12, 11, 7, 13, 15, 1, 3, 14, 5, 2, 8, 4],
   [3, 15, 0, 6, 10, 1, 13, 8, 9, 4, 5, 11, 12, 7, 2, 14]]

/-- S5, rows 0 to 3, columns 0 to 15 (R103). -/
def sBox5 : List (List Nat) :=
  [[2, 12, 4, 1, 7, 10, 11, 6, 8, 5, 3, 15, 13, 0, 14, 9],
   [14, 11, 2, 12, 4, 7, 13, 1, 5, 0, 15, 10, 3, 9, 8, 6],
   [4, 2, 1, 11, 10, 13, 7, 8, 15, 9, 12, 5, 6, 3, 0, 14],
   [11, 8, 12, 7, 1, 14, 2, 13, 6, 15, 0, 9, 10, 4, 5, 3]]

/-- S6, rows 0 to 3, columns 0 to 15 (R103). -/
def sBox6 : List (List Nat) :=
  [[12, 1, 10, 15, 9, 2, 6, 8, 0, 13, 3, 4, 14, 7, 5, 11],
   [10, 15, 4, 2, 7, 12, 9, 5, 6, 1, 13, 14, 0, 11, 3, 8],
   [9, 14, 15, 5, 2, 8, 12, 3, 7, 0, 4, 10, 1, 13, 11, 6],
   [4, 3, 2, 12, 9, 5, 15, 10, 11, 14, 1, 7, 6, 0, 8, 13]]

/-- S7, rows 0 to 3, columns 0 to 15 (R103). -/
def sBox7 : List (List Nat) :=
  [[4, 11, 2, 14, 15, 0, 8, 13, 3, 12, 9, 7, 5, 10, 6, 1],
   [13, 0, 11, 7, 4, 9, 1, 10, 14, 3, 5, 12, 2, 15, 8, 6],
   [1, 4, 11, 13, 12, 3, 7, 14, 10, 15, 6, 8, 0, 5, 9, 2],
   [6, 11, 13, 8, 1, 4, 10, 7, 9, 5, 0, 15, 14, 2, 3, 12]]

/-- S8, rows 0 to 3, columns 0 to 15 (R103). -/
def sBox8 : List (List Nat) :=
  [[13, 2, 8, 4, 6, 15, 11, 1, 10, 9, 3, 14, 5, 0, 12, 7],
   [1, 15, 13, 8, 10, 3, 7, 4, 12, 5, 6, 11, 0, 14, 9, 2],
   [7, 11, 4, 1, 9, 12, 14, 2, 0, 6, 10, 13, 15, 3, 5, 8],
   [2, 1, 14, 7, 4, 10, 8, 13, 15, 12, 9, 0, 3, 5, 6, 11]]

/-- The left-rotation amounts s_1 to s_16 (R102). -/
def rotations : List Nat := [1, 1, 2, 2, 2, 2, 2, 2, 1, 2, 2, 2, 2, 2, 2, 1]

/-! ### Single DES -/

/-- "an output bit `i` of a table `T` is input bit `T[i]`", bits counted from 1, bit 1 the most significant (R101). -/
def permute {w : Nat} (m : Nat) (t : List Nat) (x : BitVec w) : BitVec m :=
  BitVec.ofNat m (t.foldl (fun acc i => 2 * acc + x.toNat >>> (w - i) % 2) 0)

/-- The rounds of the key schedule from `C` and `D` on: rotate both, choose by PC-2 (R102). -/
def subkeysFrom : List Nat → BitVec 28 → BitVec 28 → List (BitVec 48)
  | [], _, _ => []
  | n :: ns, c, d =>
    permute 48 pc2 (c.rotateLeft n ++ d.rotateLeft n) :: subkeysFrom ns (c.rotateLeft n) (d.rotateLeft n)

/-- The subkeys K1 to K16 (R102): `C0 D0 = PC1(k)`, C0 its first 28 bits. -/
def subkeys (k : Block) : List (BitVec 48) :=
  subkeysFrom rotations ((permute 56 pc1 k).extractLsb' 28 28) ((permute 56 pc1 k).extractLsb' 0 28)

/-- `Sj[row][column]` for a group of six bits `b1 .. b6`: row `b1 b6`, column `b2 b3 b4 b5` (R103). -/
def sBoxEntry (s : List (List Nat)) (b : BitVec 6) : BitVec 4 :=
  BitVec.ofNat 4
    ((s.getD (2 * (b.getMsbD 0).toNat + (b.getMsbD 5).toNat) []).getD (b.extractLsb' 1 4).toNat 0)

/-- The eight S-box outputs, "concatenated in order S1 to S8" (R103); B1 is "the first six bits". -/
def sBoxes (b : BitVec 48) : BitVec 32 :=
  sBoxEntry sBox1 (b.extractLsb' 42 6) ++ sBoxEntry sBox2 (b.extractLsb' 36 6) ++
  sBoxEntry sBox3 (b.extractLsb' 30 6) ++ sBoxEntry sBox4 (b.extractLsb' 24 6) ++
  sBoxEntry sBox5 (b.extractLsb' 18 6) ++ sBoxEntry sBox6 (b.extractLsb' 12 6) ++
  sBoxEntry sBox7 (b.extractLsb' 6 6) ++ sBoxEntry sBox8 (b.extractLsb' 0 6)

/-- The round function `f(R, Ki)` (R103). -/
def roundFunction (r : BitVec 32) (ki : BitVec 48) : BitVec 32 :=
  permute 32 roundPermutation (sBoxes (permute 48 expansion r ^^^ ki))

/-- The rounds `Li = R(i-1)`, `Ri = L(i-1) xor f(R(i-1), Ki)` under the subkeys in the order given, then `Rn Ln`,
with the final swap (R104). -/
def rounds : List (BitVec 48) → BitVec 32 → BitVec 32 → Block
  | [], l, r => r ++ l
  | ki :: ks, l, r => rounds ks r (l ^^^ roundFunction r ki)

/-- IP, the rounds under `ks`, FP (R104). -/
def desWith (ks : List (BitVec 48)) (x : Block) : Block :=
  permute 64 finalPermutation
    (rounds ks ((permute 64 initialPermutation x).extractLsb' 32 32)
      ((permute 64 initialPermutation x).extractLsb' 0 32))

/-- `DES_E(k, x)` (R100, R104). -/
def desE (k x : Block) : Block := desWith (subkeys k) x

/-- `DES_D(k, x)`: "the subkeys used in the order K16, K15, ..., K1" (R105). -/
def desD (k x : Block) : Block := desWith (subkeys k).reverse x

/-! ### Triple-length DES -/

/-- `TDES_E(tk, x) = DES_E(k3, DES_D(k2, DES_E(k1, x)))` with k1, k2, k3 the thirds of `tk` (R107). -/
def tdesE (tk : TripleKey) (x : Block) : Block :=
  desE (slice 64 tk 16) (desD (slice 64 tk 8) (desE (slice 64 tk 0) x))

end Sys2Proof.Machine
end

