-- ==== Sys2Proof/Machine/Variant.lean ====
section
/-! DEFINITION. The key-variant masker and the normalizer: VARIANT, NORM (spec 44_variant_normalize.md). -/

namespace Sys2Proof.Machine

/-- `normalize` (R170): K1 K2 K1. -/
def normalizeKey (key : Key) : TripleKey := leftHalf key ++ rightHalf key ++ leftHalf key

/-- `applyDataVariant` (R171). -/
def applyDataVariant (key : Key) : Key := key ^^^ Config.masks.variantData

/-- VARIANT (R172). -/
def execVariant (s : State) : Result := .next (completeCommand { s with k := applyDataVariant s.k })

/-- NORM (R173). -/
def execNorm (s : State) : Result := .next (completeCommand { s with tk := normalizeKey s.k })

end Sys2Proof.Machine
end

