-- ==== Sys2Proof/Machine/Ipek.lean ====
section
/-! DEFINITION. The IPEK derivation unit: IPEK (spec 42_ipek.md). -/

namespace Sys2Proof.Machine

/-- `maskKsnForIpek` (R140): the first 8 bytes and `MASK_KSN_IPEK`. -/
def maskKsnForIpek (ksn : Ksn) : Block := slice 64 ksn 0 &&& Config.masks.ksnIpek

/-- `maskBdkForIpek` (R141). -/
def maskBdkForIpek (bdk : Key) : Key := bdk ^^^ Config.masks.bdkIpek

/-- `ipek` (R142): the masked KSN encrypted under the BDK, then under the masked BDK. -/
def deriveIpek (bdk : Key) (ksn : Ksn) : Key :=
  tdesE (normalizeKey bdk) (maskKsnForIpek ksn) ++ tdesE (normalizeKey (maskBdkForIpek bdk)) (maskKsnForIpek ksn)

/-- IPEK (R143): BDK and BDK_LEN are consumed. -/
def execIpek (s : State) : Result :=
  requireBdkLen s (requireKsnLen s
    (.next (completeCommand { s with k := deriveIpek s.bdk s.ksn, bdk := 0, bdkLen := 0 })))

end Sys2Proof.Machine
end

