-- ==== Sys2Proof/Machine/Ksn.lean ====
section
/-! DEFINITION. The KSN utilities: EXTKSI, EXTCTR, BLDREG (spec 41_ksn_utilities.md). -/

namespace Sys2Proof.Machine

/-- `extractKSI` (R120): byte 7 and 0xE0, bytes 8 and 9 zero. -/
def extractKSI (ksn : Ksn) : Ksn :=
  setByte (setByte (setByte ksn 7 (byteAt ksn 7 &&& 0xE0)) 8 0x00) 9 0x00

/-- `extractCounter` (R121): the last three bytes big-endian, masked to 21 bits. -/
def extractCounter (ksn : Ksn) : Nat := (slice 24 ksn 7 &&& 0x1FFFFF).toNat

/-- `buildRegister` (R122): the KSI with bit `p` or-ed into its last three bytes. -/
def buildRegister (ksi : Ksn) (p : Nat) : Ksn := slice 56 ksi 0 ++ (slice 24 ksi 7 ||| (1#24 <<< p))

/-- EXTKSI (R123). -/
def execExtksi (s : State) : Result :=
  requireKsnLen s (.next (completeCommand { s with ksi := extractKSI s.ksn }))

/-- EXTCTR (R124): `CTR <- zext_32(extractCounter(KSN))`. -/
def execExtctr (s : State) : Result :=
  requireKsnLen s (.next (completeCommand { s with ctr := BitVec.ofNat 32 (extractCounter s.ksn) }))

/-- BLDREG p (R125): BADPOS where p is above 20; it reads KSI, "so it makes no KSN_LEN check". -/
def execBldreg (p : Nat) (s : State) : Result :=
  if p > 20 then .next (raiseCmdError .badPos s)
  else .next (completeCommand { s with reg := buildRegister s.ksi p })

end Sys2Proof.Machine
end

