-- ==== Sys2Proof/Machine/SessionKey.lean ====
section
/-! DEFINITION. The NRKGP session-key pipeline: NRKGP, WALK (spec 43_session_key.md). -/

namespace Sys2Proof.Machine

/-- `nrkgp` (R150): each half of the masked key encrypts the same `data8` by single DES. -/
def nrkgp (key : Key) (data8 : Block) : Key :=
  desE (leftHalf (key ^^^ Config.masks.nrkgp)) data8 ++ desE (rightHalf (key ^^^ Config.masks.nrkgp)) data8

/-- One iteration of the walk, at counter bit `p` (R151). -/
def walkStep (ksn : Ksn) (key : Key) (p : Nat) : Key :=
  if (extractCounter ksn).testBit p then nrkgp key (lastEight (buildRegister (extractKSI ksn) p)) else key

/-- `sessionWalk` (R151): bits 0 to 20, ascending. -/
def sessionWalk (ipek : Key) (ksn : Ksn) : Key := (List.range 21).foldl (walkStep ksn) ipek

/-- NRKGP (R152). -/
def execNrkgp (s : State) : Result :=
  .next (completeCommand { s with k := nrkgp s.k (lastEight s.reg) })

/-- WALK (R153): K is the input key. -/
def execWalk (s : State) : Result :=
  requireKsnLen s (.next (completeCommand { s with k := sessionWalk s.k s.ksn }))

end Sys2Proof.Machine
end

