-- ==== Sys2Proof/Machine/Ecb.lean ====
section
/-! DEFINITION. The ECB-mode encryptor: ECB, ENCRYPT (spec 45_ecb_encrypt.md). -/

namespace Sys2Proof.Machine

/-- The plaintext right-padded with zero bytes to a multiple of 8 (R180 step 3). -/
def padPlaintext (pt : List Byte) : List Byte := pt ++ List.replicate (ceil8 pt.length - pt.length) 0

/-- `ecbEncrypt` (R180): each block of the padded plaintext on its own. -/
def ecbEncrypt (tk : TripleKey) (pt : List Byte) : List Byte :=
  (List.range (ceil8 pt.length / 8)).flatMap (fun i => blockBytes (tdesE tk (blockOf (padPlaintext pt) i)))

/-- `DATA[0..m) <- ecbEncrypt(tk, DATA[0..PT_LEN))`, `CT_LEN <- m`, `m = ceil8(PT_LEN)`, and completion (R181, R182).
A plaintext byte that nothing has written is a fault (93 I2). -/
def ecbInPlace (tk : TripleKey) (s : State) : Result :=
  match s.data.readRange 0 s.ptLen.toNat with
  | .error i => .fault (.unwrittenData i)
  | .ok pt =>
    .next (completeCommand
      { s with
        data := s.data.writeRange 0 (ecbEncrypt tk pt), ctLen := BitVec.ofNat 32 (ceil8 s.ptLen.toNat) })

/-- The triple-length key of a transaction (R182): IPEK, walk, variant, normalize. -/
def transactionKey (bdk : Key) (ksn : Ksn) : TripleKey :=
  normalizeKey (applyDataVariant (sessionWalk (deriveIpek bdk ksn) ksn))

/-- "no key kept", "BDK consumed" (R182): K, TK, BDK and BDK_LEN become 0. -/
def clearKeys (s : State) : State := { s with k := 0, tk := 0, bdk := 0, bdkLen := 0 }

/-- ECB (R181). -/
def execEcb (s : State) : Result := requirePtLen s (ecbInPlace s.tk s)

/-- ENCRYPT (R182). -/
def execEncrypt (s : State) : Result :=
  requireBdkLen s (requireKsnLen s (requirePtLen s (ecbInPlace (transactionKey s.bdk s.ksn) (clearKeys s))))

end Sys2Proof.Machine
end

