-- ==== Sys2Proof/Machine/Dispatch.lean ====
section
/-! DEFINITION. One arm per command: the completion of a decoded command (spec 10_state.md R41). -/

namespace Sys2Proof.Machine

def exec (i : Instr) (s : State) : Host.Outcome State Fault Refusal :=
  match i with
  | .nop => Sys2Proof.Machine.execNop s
  | .extksi => Sys2Proof.Machine.execExtksi s
  | .extctr => Sys2Proof.Machine.execExtctr s
  | .bldreg p => Sys2Proof.Machine.execBldreg p s
  | .ipek => Sys2Proof.Machine.execIpek s
  | .nrkgp => Sys2Proof.Machine.execNrkgp s
  | .walk => Sys2Proof.Machine.execWalk s
  | .variant => Sys2Proof.Machine.execVariant s
  | .norm => Sys2Proof.Machine.execNorm s
  | .ecb => Sys2Proof.Machine.execEcb s
  | .encrypt => Sys2Proof.Machine.execEncrypt s
  | .zeroize => Sys2Proof.Machine.execZeroize s

end Sys2Proof.Machine
end

