-- ==== Sys2Proof/Machine/Window.lean ====
section
/-! DEFINITION. The register window: map, reads, writes, bus errors (spec 20_memory.md R50 to R62). -/

namespace Sys2Proof.Machine

/-- The 32-bit scalar registers of the map (R52), CMD among them. -/
inductive Scalar where
  | cmd | status | ctrl | bdkLen | ksnLen | ptLen | ctLen | ctr | dataBytes
  deriving DecidableEq, Repr

/-- What lies at one offset of the window (R52). -/
inductive Loc where
  /-- byte `lane` of a scalar register, lane 0 its bits 31:24 (R54) -/
  | scalar (r : Scalar) (lane : Nat)
  | bdk (i : Nat)
  | ksn (i : Nat)
  | k (i : Nat)
  | ksi (i : Nat)
  | reg (i : Nat)
  | data (i : Nat)
  | pad
  | unassigned
  deriving DecidableEq, Repr

/-- The scalar register at offset `4 n` (R52). -/
def scalarAt : Nat → Scalar
  | 0 => .cmd
  | 1 => .status
  | 2 => .ctrl
  | 3 => .bdkLen
  | 4 => .ksnLen
  | 5 => .ptLen
  | 6 => .ctLen
  | 7 => .ctr
  | _ => .dataBytes

/-- The register map of R52, for a build of `size` DATA bytes. -/
def locate (size o : Nat) : Loc :=
  if o < 0x0024 then .scalar (scalarAt (o / 4)) (o % 4)
  else if o < 0x0040 then .unassigned
  else if o < 0x0050 then .bdk (o - 0x0040)
  else if o < 0x005A then .ksn (o - 0x0050)
  else if o < 0x005C then .pad
  else if o < 0x0060 then .unassigned
  else if o < 0x0070 then .k (o - 0x0060)
  else if o < 0x007A then .ksi (o - 0x0070)
  else if o < 0x007C then .pad
  else if o < 0x0080 then .unassigned
  else if o < 0x008A then .reg (o - 0x0080)
  else if o < 0x008C then .pad
  else if o < 0x1000 then .unassigned
  else if o < 0x1000 + size then .data (o - 0x1000)
  else .unassigned

/-- The locations an access of `n` bytes at `o` covers, in lane order. -/
def covered (size o n : Nat) : List Loc := (List.range n).map (fun j => locate size (o + j))

/-- Whether an access is a bus error (R58, R55): width, alignment, a narrow access to 0x0000 to 0x003F, or an
unassigned offset. -/
def busError (size o n : Nat) : Bool :=
  !(n == 1 || n == 2 || n == 4) || o % n != 0 || (decide (o < 0x0040) && n != 4) ||
    (covered size o n).any (fun l => l == .unassigned)

/-! ### Reads -/

/-- The value a scalar register reads as (R56); "A read of CMD returns 0x00000000" (R22). -/
def scalarValue (s : State) : Scalar → Word
  | .cmd => 0
  | .status => s.status
  | .ctrl => s.ctrl
  | .bdkLen => s.bdkLen
  | .ksnLen => s.ksnLen
  | .ptLen => s.ptLen
  | .ctLen => s.ctLen
  | .ctr => s.ctr
  | .dataBytes => s.dataBytes

/-- Whether a scalar register reads exactly while a command is pending: CMD, STATUS, CTRL, DATABYTES (R59). -/
def Scalar.alwaysExact : Scalar → Bool
  | .cmd => true
  | .status => true
  | .ctrl => true
  | .dataBytes => true
  | .bdkLen => false
  | .ksnLen => false
  | .ptLen => false
  | .ctLen => false
  | .ctr => false

/-- What one byte lane of a read carries. -/
inductive Lane where
  /-- the byte -/
  | known (b : Byte)
  /-- an unspecified byte (R59) -/
  | free
  /-- DATA byte `i`, which nothing has written (93 I2) -/
  | unwritten (i : Nat)
  deriving DecidableEq, Repr

/-- A byte that reads exactly with nothing pending and is unspecified while a command is pending (R59). -/
def idleOnly (s : State) (b : Byte) : Lane := if s.pending.isSome then .free else .known b

/-- The byte at one location (R56, R59). Write-only bytes and pads read 0 at all times. -/
def laneAt (s : State) : Loc → Lane
  | .scalar r lane =>
    if r.alwaysExact then .known (byteAt (scalarValue s r) lane) else idleOnly s (byteAt (scalarValue s r) lane)
  | .bdk _ => .known 0
  | .k _ => .known 0
  | .pad => .known 0
  | .unassigned => .known 0
  | .ksn i => idleOnly s (byteAt s.ksn i)
  | .ksi i => idleOnly s (byteAt s.ksi i)
  | .reg i => idleOnly s (byteAt s.reg i)
  | .data i =>
    if s.pending.isSome then .free
    else match s.data.read i with
      | some b => .known b
      | none => .unwritten i

/-- The lanes of a read of `n` bytes at `o`. -/
def lanesOf (s : State) (o n : Nat) : List Lane := (covered s.dataBytes.toNat o n).map (laneAt s)

/-- The first DATA index among the lanes that nothing has written. -/
def firstUnwritten : List Lane → Option Nat
  | [] => none
  | .unwritten i :: _ => some i
  | .known _ :: ls => firstUnwritten ls
  | .free :: ls => firstUnwritten ls

/-- The bytes of the lanes: an unspecified lane `j` carries byte `j` of the draw `d`. -/
def laneBytes (d : Word) : Nat → List Lane → List Byte
  | _, [] => []
  | j, .known b :: ls => b :: laneBytes d (j + 1) ls
  | j, .free :: ls => byteAt d j :: laneBytes d (j + 1) ls
  | j, .unwritten _ :: ls => 0 :: laneBytes d (j + 1) ls

/-- Whether some lane is unspecified. -/
def anyFree (ls : List Lane) : Bool := ls.any (fun l => l == .free)

/-- The value a read returns: `be` of its bytes (R54), the free lanes drawn for this read (DESIGN CHOICE, by class DEDUCED: log entry 4). -/
def readValue (s : State) (o n : Nat) : Word :=
  BitVec.ofNat 32 (be (laneBytes (Config.freeRead s.draws) 0 (lanesOf s o n)))

/-- `MemRead(o, n)` (R56, R59), no bus error: no state of the block changes. -/
def memRead (o n : Nat) (s : State) : Result :=
  match firstUnwritten (lanesOf s o n) with
  | some i => .fault (.unwrittenData i)
  | none =>
    .next { s with
      readData := readValue s o n
      draws := if anyFree (lanesOf s o n) then s.draws + 1 else s.draws }

/-! ### Writes -/

/-- Whether a location is one of the operand bytes BDK, KSN, K, DATA (R57). -/
def Loc.isOperand : Loc → Bool
  | .bdk _ => true
  | .ksn _ => true
  | .k _ => true
  | .data _ => true
  | .scalar _ _ => false
  | .ksi _ => false
  | .reg _ => false
  | .pad => false
  | .unassigned => false

/-- Write one byte by its class (R57): "KSI, REG or pad byte: unchanged (ignored)". -/
def writeByte (s : State) : Loc → Byte → State
  | .bdk i, b => { s with bdk := setByte s.bdk i b }
  | .ksn i, b => { s with ksn := setByte s.ksn i b }
  | .k i, b => { s with k := setByte s.k i b }
  | .data i, b => { s with data := s.data.write i b }
  | .ksi _, _ => s
  | .reg _, _ => s
  | .pad, _ => s
  | .scalar _ _, _ => s
  | .unassigned, _ => s

/-- The bytes of a write, one lane after another (R57). -/
def writeBytes (o n : Nat) (v : Word) (s : State) : State :=
  (List.range n).foldl (fun t j => writeByte t (locate s.dataBytes.toNat (o + j)) (beByte n v j)) s

/-- Whether a write is one that a pending command drops (R57). -/
def droppedWhilePending (s : State) (o n : Nat) : Bool :=
  o == 0x0000 || o == 0x000C || o == 0x0010 || o == 0x0014 ||
    (covered s.dataBytes.toNat o n).any Loc.isOperand

/-- `MemWrite(o, n, v)` (R57), no bus error. -/
def memWrite (o n : Nat) (v : Word) (s : State) : State :=
  if o = 0x0004 then { s with status := Status.hostWrite s.status v }
  else if o = 0x0008 then { s with ctrl := v &&& 0x00000001 }
  else if o = 0x0018 ∨ o = 0x001C ∨ o = 0x0020 then s
  else if s.pending.isSome ∧ droppedWhilePending s o n then dropWrite s
  else if o = 0x0000 then issueCommand v s
  else if o = 0x000C then { s with bdkLen := v }
  else if o = 0x0010 then { s with ksnLen := v }
  else if o = 0x0014 then { s with ptLen := v }
  else writeBytes o n v s

/-! ### Accesses -/

/-- One host access (R14): a bus error is a fault of the host (93 I10; DEDUCED, safe: log entry 8). -/
def hostAccess (a : Access) (s : State) : Result :=
  if busError s.dataBytes.toNat a.offset a.width then .fault (.busError a.offset a.width)
  else match a.op with
    | .read => memRead a.offset a.width s
    | .write v => .next (memWrite a.offset a.width v s)

/-- The offset of a host address: "addresses outside it do not reach the block" (R51). -/
def offsetOf (addr : Nat) : Option Nat :=
  if Config.windowBase ≤ addr ∧ addr < Config.windowBase + 0x10000 then some (addr - Config.windowBase) else none

/-- A host access at a host address (R51). -/
def busCycle (addr width : Nat) (op : AccessOp) (s : State) : Result :=
  match offsetOf addr with
  | none => .next s
  | some o => hostAccess ⟨o, width, op⟩ s

end Sys2Proof.Machine
end

