-- ==== Sys2Proof/Machine/Engine.lean ====
section
/-! DEFINITION. The engine step (spec 10_state.md R41) and what each event does (R20, R222). -/

namespace Sys2Proof.Machine

/-- The engine step with `w` pending: decode, then the command; a word that does not decode ends with ILLEGAL
(R41, R84, R85). -/
def completePending (w : Word) (s : State) : Result :=
  match decodeWord w with
  | .ok i => exec i s
  | .error _ => .next (raiseCmdError .illegal s)

/-- The engine's turn: "enabled exactly when `pending != none`" (R39). -/
def engineTurn (s : State) : Result :=
  match s.pending with
  | none => .next s
  | some w => completePending w s

/-- What an event does. -/
def handleEvent (e : Event) (s : State) : Result :=
  match e with
  | .engine => engineTurn s
  | .access a => hostAccess a s
  | .busCycle addr width op => busCycle addr width op s
  | .reset => .next (resetBlock s)
  | .powerLoss => .fault .powerOff

/-- The next turn: the first event of the schedule, or, with the schedule exhausted, the engine's, since its step "is
eventually taken" (R271; DESIGN CHOICE: log entry 1). -/
def takeTurn (s : State) : Result :=
  match s.schedule with
  | [] => engineTurn s
  | e :: rest => handleEvent e { s with schedule := rest }

/-- `s` with the command word `w` issued (R39) and the engine's turn next. -/
def withPendingWord (s : State) (w : Word) : State :=
  { issueCommand w s with schedule := .engine :: s.schedule }

end Sys2Proof.Machine
end

