-- ==== Sys2Proof/Machine/Step.lean ====
section
/-! DEFINITION. One step of the machine, and where a command word is put for the next step to run it. -/

namespace Sys2Proof.Machine

/-- One step: the next turn of the schedule. -/
def step (s : State) : Host.Outcome State Fault Refusal := takeTurn s

/-- The word of a table row, issued to the engine as a CMD write would issue it (R39), the engine's turn next, so that
the next step decodes and completes exactly it (DESIGN CHOICE: log entry 7). -/
def State.withFetchWord (s : State) (nbits w : Nat) : State := withPendingWord s (tableWord nbits w)

end Sys2Proof.Machine
end

