-- ==== Sys2Proof/Machine/Script.lean ====
section
/-! DEFINITION. The command syntax and the host script notation (spec 30_encoding.md R86, R87): how a host's script
becomes accesses of the window. -/

namespace Sys2Proof.Machine

/-- The mnemonics that stand alone (R86). -/
def plainCommands : List (String × Instr) :=
  [("NOP", .nop), ("EXTKSI", .extksi), ("EXTCTR", .extctr), ("IPEK", .ipek), ("NRKGP", .nrkgp), ("WALK", .walk),
   ("VARIANT", .variant), ("NORM", .norm), ("ECB", .ecb), ("ENCRYPT", .encrypt), ("ZEROIZE", .zeroize)]

/-- Assemble a command (R86): a mnemonic, and for BLDREG only a bit position 0 to 31. Words outside the opcode map
have no text ("refuse (in program text)", 93 I7). -/
def assemble (mnemonic : String) (pos : Option Nat) : Option Instr :=
  match pos with
  | some p => if mnemonic = "BLDREG" ∧ p ≤ 31 then some (.bldreg p) else none
  | none => (plainCommands.find? (fun r => r.1 == mnemonic)).map Prod.snd

/-- One line of a host script (R87). -/
inductive ScriptLine where
  /-- `wr32`, `wr16`, `wr8`: n is 4, 2, 1 -/
  | wr (n o : Nat) (v : Word)
  /-- `rd32`, `rd16`, `rd8` -/
  | rd (n o : Nat)
  | wrbytes (o : Nat) (bs : List Byte)
  | cmd (i : Instr)
  | wait
  | ack
  deriving DecidableEq, Repr

/-- The width `wrbytes` uses at an offset with `left` bytes to go (R87). -/
def scriptWidth (o left : Nat) : Nat :=
  if o % 4 = 0 ∧ 4 ≤ left then 4 else if o % 2 = 0 ∧ 2 ≤ left then 2 else 1

/-- The accesses of `wrbytes` (R87), for at most `fuel` of them; one per byte is enough. -/
def wrbytesAccesses : Nat → Nat → List Byte → List Access
  | 0, _, _ => []
  | _ + 1, _, [] => []
  | fuel + 1, o, b :: bs =>
    ⟨o, scriptWidth o (b :: bs).length,
      .write (BitVec.ofNat 32 (be ((b :: bs).take (scriptWidth o (b :: bs).length))))⟩ ::
    wrbytesAccesses fuel (o + scriptWidth o (b :: bs).length) ((b :: bs).drop (scriptWidth o (b :: bs).length))

/-- The events of one line (R87). `wait` polls STATUS until BUSY = 0; polls while BUSY = 1 change no state of the block
(R61), so it is the engine's turn followed by the poll that sees BUSY = 0 (DEDUCED: log entry 12). -/
def ScriptLine.events : ScriptLine → List Event
  | .wr n o v => [.access ⟨o, n, .write v⟩]
  | .rd n o => [.access ⟨o, n, .read⟩]
  | .wrbytes o bs => (wrbytesAccesses bs.length o bs).map .access
  | .cmd i => [.access ⟨0x0000, 4, .write (encode i)⟩]
  | .wait => [.engine, .access ⟨0x0004, 4, .read⟩]
  | .ack => [.access ⟨0x0004, 4, .write 0x00000002⟩]

/-- The events of a script. -/
def scriptEvents (lines : List ScriptLine) : List Event := lines.flatMap ScriptLine.events

end Sys2Proof.Machine
end

