-- ==== Sys2Proof/Safety.lean ====
section
/-! DEFINITION. The terms claims are stated in: the check of R212 as one function, the invariant the spec's rules
give, safe runs, the end of a run. -/

namespace Sys2Proof.Machine

/-- `check` of R212 after decoding: the first error that applies, in the spec's order. -/
def check (i : Instr) (s : State) : Option CmdError :=
  match i with
  | .bldreg p => if p > 20 then some .badPos else none
  | .ipek => if s.bdkLen ≠ 16 then some .bdkLen else if s.ksnLen ≠ 10 then some .ksnLen else none
  | .encrypt =>
    if s.bdkLen ≠ 16 then some .bdkLen else if s.ksnLen ≠ 10 then some .ksnLen
    else if s.ptLen.toNat > s.dataBytes.toNat then some .ptLen else none
  | .extksi => if s.ksnLen ≠ 10 then some .ksnLen else none
  | .extctr => if s.ksnLen ≠ 10 then some .ksnLen else none
  | .walk => if s.ksnLen ≠ 10 then some .ksnLen else none
  | .ecb => if s.ptLen.toNat > s.dataBytes.toNat then some .ptLen else none
  | .nop => none
  | .nrkgp => none
  | .variant => none
  | .norm => none
  | .zeroize => none

/-- Every DATA byte below `n` has been written. -/
def WrittenBelow (m : Memory) (n : Nat) : Prop := ∀ i, i < n → (m.read i).isSome = true

/-- A legal build: "any multiple of 8 with 8 <= DATA_BYTES <= 61440" (R8). -/
def LegalBuild (size : Nat) : Prop := 8 ≤ size ∧ size ≤ 61440 ∧ size % 8 = 0

/-- What the rules keep true of every state a run reaches. -/
structure Inv (s : State) : Prop where
  /-- "STATUS.BUSY is 1 exactly when `pending != none`" (R39) -/
  busy_iff_pending : Status.busy s.status = s.pending.isSome
  /-- "`BUSY = 1` implies `DONE = 0`, `ERR = 0` and `ERRCODE = 0`" (R23) -/
  busy_quiet : Status.busy s.status = true →
    Status.done s.status = false ∧ Status.err s.status = false ∧ Status.errCode s.status = 0
  /-- "`ERR = 1` if and only if `ERRCODE != 0`" (R23) -/
  err_iff_code : Status.err s.status = true ↔ Status.errCode s.status ≠ 0
  /-- "`ERR = 1` implies `DONE = 1`" (R23) -/
  err_done : Status.err s.status = true → Status.done s.status = true
  /-- codes 3 and 7 to 15 are never written (R210, 93 I8, I9) -/
  code_known : Status.errCode s.status ∈ [(0 : BitVec 4), 1, 2, 4, 5, 6]
  /-- STATUS 7:4 and 31:12 read 0 (R23) -/
  status_reserved : s.status &&& 0xFFFFF0F0 = 0
  /-- CTRL 31:1 read 0 (R25) -/
  ctrl_reserved : s.ctrl &&& 0xFFFFFFFE = 0
  /-- CTR 31:21 are always 0 (R30) -/
  ctr_small : s.ctr.toNat < 2 ^ 21
  /-- `TK[16..24) = TK[0..8)` (R35) -/
  tk_shape : slice 64 s.tk 16 = slice 64 s.tk 0
  /-- `KSI[7][4:0] = 0`, `KSI[8] = 0`, `KSI[9] = 0` (R37) -/
  ksi_shape : s.ksi &&& 0x1FFFFF = 0
  /-- CT_LEN is a ciphertext length: a multiple of 8 (R29), within DATA -/
  ct_len : s.ctLen.toNat % 8 = 0 ∧ s.ctLen.toNat ≤ s.dataBytes.toNat
  /-- DATA's canonical form -/
  data_wf : s.data.wf = true
  /-- no byte is held outside DATA -/
  data_within : s.data.within s.dataBytes.toNat = true
  /-- the build is legal (R8) -/
  legal_build : LegalBuild s.dataBytes.toNat

/-- A run from `s` that never stops. -/
def Safe (s : State) : Prop := ∀ n, ∃ t, Host.Core.run core n s = .next t

/-- The end of a run: the host's last access is done and nothing is pending (R272). -/
def RunEnded (s : State) : Prop := s.schedule = [] ∧ s.pending = none

/-- `s` and `t` differ at most in the registers the host cannot read: BDK, K, TK (R42). -/
def SameButKeys (s t : State) : Prop := t = { s with bdk := t.bdk, k := t.k, tk := t.tk }

/-! ### The claims' own words, written out from the spec beside the model's functions -/

/-- STATUS after a completion without an error: BUSY 0, DONE 1, ERR 0, ERRCODE 0, every other bit as it was
(R41 (3), (4)). -/
def doneStatus (st : Word) : Word := (st &&& 0xFFFFF0F8) ||| 0x00000002

/-- STATUS after a completion with error `code`: BUSY 0, DONE 1, ERR 1, every other bit as it was (R41 (2), (4)). -/
def failedStatus (code : BitVec 4) (st : Word) : Word :=
  (st &&& 0xFFFFF0F8) ||| 0x00000006 ||| (code.setWidth 32 <<< 8)

/-- STATUS at issue: BUSY 1, DONE 0, ERR 0, ERRCODE 0 (R39). -/
def issuedStatus (st : Word) : Word := (st &&& 0xFFFFF0F8) ||| 0x00000001

/-- "every word with RSVD != 0, every unassigned OP ..., and every word with POS != 0 and OP != 0x03" (R85). -/
def IllegalWord (w : Word) : Prop :=
  w.extractLsb' 13 19 ≠ 0 ∨
  w.extractLsb' 0 8 ∉ ([0x00, 0x01, 0x02, 0x03, 0x10, 0x20, 0x21, 0x30, 0x31, 0x40, 0x41, 0xF0] : List Byte) ∨
  (w.extractLsb' 8 5 ≠ 0 ∧ w.extractLsb' 0 8 ≠ 0x03)

/-- The unassigned offsets of R52 for a build of `size` DATA bytes. -/
def UnassignedOffset (size o : Nat) : Prop :=
  (0x0024 ≤ o ∧ o ≤ 0x003F) ∨ (0x005C ≤ o ∧ o ≤ 0x005F) ∨ (0x007C ≤ o ∧ o ≤ 0x007F) ∨
  (0x008C ≤ o ∧ o ≤ 0x0FFF) ∨ 0x1000 + size ≤ o

/-- The pad offsets of R52: two bytes after each of KSN, KSI and REG. -/
def PadOffset (o : Nat) : Prop :=
  (0x005A ≤ o ∧ o ≤ 0x005B) ∨ (0x007A ≤ o ∧ o ≤ 0x007B) ∨ (0x008A ≤ o ∧ o ≤ 0x008B)

/-- An access that is no bus error (R58). -/
def LegalAccess (size o n : Nat) : Prop :=
  (n = 1 ∨ n = 2 ∨ n = 4) ∧ o % n = 0 ∧ (o < 0x0040 → n = 4) ∧ ∀ j, j < n → ¬ UnassignedOffset size (o + j)

/-- Offset `o` lies in `count` bytes from `base` up. -/
abbrev InRange (base count o : Nat) : Prop := base ≤ o ∧ o < base + count

/-- `o` is the offset of a BDK, KSN, K or DATA byte (R52, R57). -/
def OperandOffset (size o : Nat) : Prop :=
  InRange 0x0040 16 o ∨ InRange 0x0050 10 o ∨ InRange 0x0060 16 o ∨ InRange 0x1000 size o

/-- `o` is the offset of a KSN, KSI, REG or DATA byte (R52): the array bytes whose value is unspecified while a command is
pending (R59). -/
def UnspecifiedOffset (size o : Nat) : Prop :=
  InRange 0x0050 10 o ∨ InRange 0x0070 10 o ∨ InRange 0x0080 10 o ∨ InRange 0x1000 size o

/-- Byte `j` of the padded plaintext: DATA below PT_LEN, zero above (R180 step 3). -/
def plainByte (s : State) (j : Nat) : Byte := if j < s.ptLen.toNat then (s.data.read j).getD 0 else 0

/-- Block `b` of the padded plaintext, its first byte the most significant (R53, R180). -/
def plainBlock (s : State) (b : Nat) : Block :=
  plainByte s (8 * b) ++ plainByte s (8 * b + 1) ++ plainByte s (8 * b + 2) ++ plainByte s (8 * b + 3) ++
  plainByte s (8 * b + 4) ++ plainByte s (8 * b + 5) ++ plainByte s (8 * b + 6) ++ plainByte s (8 * b + 7)

/-- What an in-place encryption under `tk` leaves in DATA: ciphertext below `ceil8(PT_LEN)`, all else as it was
(R181, R182). -/
def EncryptedData (tk : TripleKey) (s : State) (m : Memory) : Prop :=
  ∀ i, m.read i =
    if i < (s.ptLen.toNat + 7) / 8 * 8 then some (byteAt (tdesE tk (plainBlock s (i / 8))) (i % 8))
    else s.data.read i

end Sys2Proof.Machine
end

