-- ==== Sys2Proof/Certificates/Slice0/Obligations.lean ====
section
/-! DEFINITION. The statements for the provers. Each docstring names the spec's rule it speaks of. Results are written out
as numbers and bit fields, not through the functions the meanings call, wherever the spec gives them so. -/

open Sys2Proof Sys2Proof.Machine

/-! ### Encoding -/

/-- 30_encoding.md R83, 95 V-DEC: words written out from the opcode map. -/
def Obligations.DecodeSampleWords : Prop :=
  decodeWord 0x00000000 = .ok .nop ∧ decodeWord 0x00000001 = .ok .extksi ∧ decodeWord 0x00000002 = .ok .extctr ∧
  decodeWord 0x00001403 = .ok (.bldreg 20) ∧ decodeWord 0x00000010 = .ok .ipek ∧
  decodeWord 0x00000020 = .ok .nrkgp ∧ decodeWord 0x00000021 = .ok .walk ∧ decodeWord 0x00000030 = .ok .variant ∧
  decodeWord 0x00000031 = .ok .norm ∧ decodeWord 0x00000040 = .ok .ecb ∧ decodeWord 0x00000041 = .ok .encrypt ∧
  decodeWord 0x000000F0 = .ok .zeroize ∧ decodeWord 0x00000100 = .error .posNotZero ∧
  decodeWord 0x00002003 = .error .reservedBits ∧ decodeWord 0x00000011 = .error .unassignedOp

/-- 30_encoding.md R80 to R86: a word decodes to a command exactly when the command is well formed and the word is its
encoding; and the bytes in CMD's lanes decode to the command, leaving the bytes after them. -/
def Obligations.DecodeEncodeAgree : Prop :=
  (∀ (w : Word) (i : Instr), decodeWord w = .ok i ↔ i.WellFormed ∧ encode i = w) ∧
  (∀ (i : Instr) (rest : List Byte), i.WellFormed → decodeBytes (encodeBytes i ++ rest) = .ok (i, rest))

/-- 30_encoding.md R84, its own inference ("The opcode table is therefore a complete decoder"): a word decodes exactly
when it matches a row of the opcode map, and no word matches two rows. -/
def Obligations.OpcodeTableDecides : Prop :=
  ∀ w : Word,
    ((∃ i, decodeWord w = .ok i) ↔ ∃ r ∈ opcodeTable, w &&& r.mask = r.pattern) ∧
    (∀ r ∈ opcodeTable, ∀ r' ∈ opcodeTable, w &&& r.mask = r.pattern → w &&& r'.mask = r'.pattern → r = r')

/-- 30_encoding.md R85: each illegal word "completes with error ILLEGAL (code 4) and changes no register other than
STATUS", and BLDREG with POS 21 to 31 completes with error BADPOS (code 5). -/
def Obligations.IllegalWordsEndIllegal : Prop :=
  ∀ (s : State) (w : Word), s.pending = some w →
    (IllegalWord w → engineTurn s = .next { s with status := failedStatus 4 s.status, pending := none }) ∧
    (¬ IllegalWord w → w.extractLsb' 0 8 = 0x03 → 20 < (w.extractLsb' 8 5).toNat →
      engineTurn s = .next { s with status := failedStatus 5 s.status, pending := none })

/-! ### The step -/

/-- 10_state.md R41: the engine's step completes the decoded pending command. That the engine moves next when the schedule
is empty or has its event first is the model's choice (log entry 1): R222 leaves the order free. -/
def Obligations.StepRunsDecodedCommand : Prop :=
  ∀ (s : State) (w : Word) (i : Instr), s.pending = some w → decodeWord w = .ok i →
    (s.schedule = [] → step s = exec i s) ∧
    (∀ rest, s.schedule = .engine :: rest → step s = exec i { s with schedule := rest })

/-- The model's choice (log entry 7): `withFetchWord` issues the word as R39 says and puts the engine's turn first, so that
the next step runs it. R222 (b) itself leaves open what comes next after an issue. -/
def Obligations.FetchWordRunsCommand : Prop :=
  ∀ (s : State) (i : Instr), i.WellFormed →
    step (s.withFetchWord 32 (encode i).toNat) =
      exec i { s with status := issuedStatus s.status, pending := some (encode i) }

/-- 60_exceptions.md R235: "between commands it is idle and its registers hold their values". That there is a step with the
schedule exhausted, and that it answers the same state, is the model's choice (log entry 1). -/
def Obligations.IdleStepChangesNothing : Prop :=
  ∀ s : State, s.schedule = [] → s.pending = none → step s = .next s

/-- 70_reset_and_hazards.md R250, 60_exceptions.md R222 (c): reset gives every register its reset value from any
state, abandons a pending command, leaves DATABYTES, and leaves no DATA byte written. What an unwritten byte is, is the
model's (log entry 2), and so is that the rest of the schedule goes on (log entries 1 and 11). -/
def Obligations.ResetGivesResetState : Prop :=
  ∀ (s : State) (rest : List Event), s.schedule = .reset :: rest →
    ∃ t, step s = .next t ∧ t.pending = none ∧ t.status = 0 ∧ t.ctrl = 0 ∧ irq t = false ∧ t.bdkLen = 0 ∧
      t.ksnLen = 0 ∧ t.ptLen = 0 ∧ t.ctLen = 0 ∧ t.ctr = 0 ∧ t.dataBytes = s.dataBytes ∧ t.bdk = 0 ∧ t.ksn = 0 ∧
      t.k = 0 ∧ t.tk = 0 ∧ t.ksi = 0 ∧ t.reg = 0 ∧ (∀ a, t.data.read a = none) ∧ t.schedule = rest

/-- 10_state.md R23, R25, R30, R35, R37, R39: the state after reset meets the invariant. -/
def Obligations.ResetMeetsInvariant : Prop := Inv State.reset

/-- 10_state.md R23, R25, R29, R30, R35, R37, R39: every step of either agent keeps the invariant. R23's three
implications and R30's, R35's and R37's clauses are inferences that the spec marks [derived]. DATA's form is the model's (log entry 2), and
so is a field for the build's size (log entry 3). -/
def Obligations.StepKeepsInvariant : Prop := ∀ s t : State, Inv s → step s = .next t → Inv t

/-- 70_reset_and_hazards.md R271, R272: with the engine weakly fair (log entry 1), a run that does not stop has ended
one step after the schedule's last event: nothing is pending. -/
def Obligations.ScheduleDrains : Prop :=
  ∀ s t : State, Host.Core.run core (s.schedule.length + 1) s = .next t → RunEnded t

/-! ### The commands -/

/-- 46_control.md R200. That it raises irq is R200's own inference ("[derived: from rule R40 and this rule]"), and the run
from reset goes by the model's schedule (log entry 1). -/
def Obligations.NopCommand : Prop :=
  (∀ w : Word, decodeWord w = .ok .nop ↔ w = 0x00000000) ∧
  (∀ w : Word, w.extractLsb' 0 8 = 0x00 → w ≠ 0 → IllegalWord w) ∧
  (∀ s : State, exec .nop s = .next { s with status := doneStatus s.status, pending := none }) ∧
  (∀ s t : State, s.ctrl.getLsbD 0 = true → exec .nop s = .next t → irq t = true) ∧
  (∀ (s : State) (w : Word), s.pending = some w →
    hostAccess ⟨0x0000, 4, .write 0x00000000⟩ s = .next { s with status := s.status ||| 0x00000008 }) ∧
  Host.Core.run core 2
      { State.reset with schedule := [.access ⟨0x0000, 4, .write 0x00000000⟩, .engine] } =
    .next { State.reset with status := 0x00000002 }

/-- 41_ksn_utilities.md R123, R120: KSI becomes the KSN with its last 21 bits zero; with KSN_LEN other than 10 nothing
but STATUS changes, error KSN_LEN. -/
def Obligations.ExtksiCommand : Prop :=
  ∀ s : State,
    (s.ksnLen = 10 → exec .extksi s =
      .next { s with ksi := s.ksn &&& 0xFFFFFFFFFFFFFFE00000, status := doneStatus s.status, pending := none }) ∧
    (s.ksnLen ≠ 10 → exec .extksi s = .next { s with status := failedStatus 2 s.status, pending := none })

/-- 41_ksn_utilities.md R124, R121: CTR becomes the KSN's low 21 bits. -/
def Obligations.ExtctrCommand : Prop :=
  ∀ s : State,
    (s.ksnLen = 10 → exec .extctr s =
      .next { s with
        ctr := BitVec.ofNat 32 (s.ksn.toNat % 2 ^ 21), status := doneStatus s.status, pending := none }) ∧
    (s.ksnLen ≠ 10 → exec .extctr s = .next { s with status := failedStatus 2 s.status, pending := none })

/-- 41_ksn_utilities.md R125, R122: for `p` 0 to 20 byte `9 - p div 8` of REG is KSI's with bit `p mod 8` set, and every
other byte is KSI's; above 20 error BADPOS. No KSN_LEN check. -/
def Obligations.BldregCommand : Prop :=
  ∀ (s : State) (p : Nat),
    (p ≤ 20 → ∃ r : Ksn,
      exec (.bldreg p) s = .next { s with reg := r, status := doneStatus s.status, pending := none } ∧
      ∀ i, i < 10 → byteAt r i = if i = 9 - p / 8 then byteAt s.ksi i ||| (1#8 <<< (p % 8)) else byteAt s.ksi i) ∧
    (20 < p → exec (.bldreg p) s = .next { s with status := failedStatus 5 s.status, pending := none })

/-- 42_ipek.md R143, R140 to R142: both halves encrypt the KSN's first 8 bytes masked with `FF FF FF FF FF FF FF E0`, the
left under BDK, the right under BDK xor `C0`x12 `00`x4; BDK and BDK_LEN are cleared, so that a second IPEK ends with error
BDK_LEN (the spec's own inference); BDK_LEN is checked before KSN_LEN. -/
def Obligations.IpekCommand : Prop :=
  ∀ s : State,
    (s.bdkLen = 16 → s.ksnLen = 10 → ∃ t, exec .ipek s = .next t ∧
      t = { s with
        k := tdesE (normalizeKey s.bdk) (s.ksn.extractLsb' 16 64 &&& 0xFFFFFFFFFFFFFFE0) ++
          tdesE (normalizeKey (s.bdk ^^^ 0xC0C0C0C0C0C0C0C0C0C0C0C000000000))
            (s.ksn.extractLsb' 16 64 &&& 0xFFFFFFFFFFFFFFE0)
        bdk := 0, bdkLen := 0, status := doneStatus s.status, pending := none } ∧
      exec .ipek t = .next { t with status := failedStatus 1 t.status, pending := none }) ∧
    (s.bdkLen ≠ 16 → exec .ipek s = .next { s with status := failedStatus 1 s.status, pending := none }) ∧
    (s.bdkLen = 16 → s.ksnLen ≠ 10 →
      exec .ipek s = .next { s with status := failedStatus 2 s.status, pending := none })

/-- 43_session_key.md R152, R150: each half of K xor `C0`x16 is the single-DES key under which REG[2..10) is encrypted. -/
def Obligations.NrkgpCommand : Prop :=
  ∀ s : State, exec .nrkgp s =
    .next { s with
      k := desE (s.k.extractLsb' 64 64 ^^^ 0xC0C0C0C0C0C0C0C0) (s.reg.extractLsb' 0 64) ++
        desE (s.k.extractLsb' 0 64 ^^^ 0xC0C0C0C0C0C0C0C0) (s.reg.extractLsb' 0 64)
      status := doneStatus s.status, pending := none }

/-- 43_session_key.md R153, R151: for counter bits 0 to 20 ascending, at each set bit one NRKGP step whose data is the
last 8 bytes of the KSN with its counter replaced by that bit alone; every other register is as before. -/
def Obligations.WalkCommand : Prop :=
  ∀ s : State,
    (s.ksnLen = 10 → exec .walk s =
      .next { s with
        k := (List.range 21).foldl
          (fun key p =>
            if s.ksn.getLsbD p then
              nrkgp key (((s.ksn &&& 0xFFFFFFFFFFFFFFE00000) ||| (1#80 <<< p)).extractLsb' 0 64)
            else key) s.k
        status := doneStatus s.status, pending := none }) ∧
    (s.ksnLen ≠ 10 → exec .walk s = .next { s with status := failedStatus 2 s.status, pending := none })

/-- 44_variant_normalize.md R172, R171: bytes 7 and 15 of K are inverted and the others kept; a second VARIANT gives K back
(R174, the spec's own inference). -/
def Obligations.VariantCommand : Prop :=
  ∀ s : State, ∃ t,
    exec .variant s = .next t ∧ t = { s with k := t.k, status := doneStatus s.status, pending := none } ∧
    (∀ i, i < 16 → byteAt t.k i = if i = 7 ∨ i = 15 then ~~~(byteAt s.k i) else byteAt s.k i) ∧
    ∃ u, exec .variant t = .next u ∧ u.k = s.k

/-- 44_variant_normalize.md R173, R170: TK becomes K1 K2 K1, byte by byte. -/
def Obligations.NormCommand : Prop :=
  ∀ s : State, ∃ t,
    exec .norm s = .next t ∧ t = { s with tk := t.tk, status := doneStatus s.status, pending := none } ∧
    ∀ i, i < 24 → byteAt t.tk i = byteAt s.k (i % 16)

/-- 45_ecb_encrypt.md R181, R180: with PT_LEN at most DATA_BYTES and the plaintext written, DATA below `ceil8(PT_LEN)` becomes
the ciphertext of the zero-padded plaintext, block by block under TK, every other DATA byte reads as before, and CT_LEN is
`ceil8(PT_LEN)`; above DATA_BYTES error PT_LEN. -/
def Obligations.EcbCommand : Prop :=
  ∀ s : State,
    (s.ptLen.toNat ≤ s.dataBytes.toNat → WrittenBelow s.data s.ptLen.toNat → ∃ m,
      exec .ecb s =
        .next { s with
          data := m, ctLen := BitVec.ofNat 32 ((s.ptLen.toNat + 7) / 8 * 8)
          status := doneStatus s.status, pending := none } ∧
      EncryptedData s.tk s m) ∧
    (s.dataBytes.toNat < s.ptLen.toNat →
      exec .ecb s = .next { s with status := failedStatus 6 s.status, pending := none })

/-- 93_implementation_defined.md I2: ECB or ENCRYPT taking an unwritten byte of DATA[0..PT_LEN) as plaintext is a fault, at
the first such byte (that it is the first is the model's choice, log entry 2). -/
def Obligations.UnwrittenPlaintextStops : Prop :=
  ∀ (s : State) (i : Nat), s.ptLen.toNat ≤ s.dataBytes.toNat → i < s.ptLen.toNat → s.data.read i = none →
    WrittenBelow s.data i →
    exec .ecb s = .fault (.unwrittenData i) ∧
    (s.bdkLen = 16 → s.ksnLen = 10 → exec .encrypt s = .fault (.unwrittenData i))

/-- 45_ecb_encrypt.md R182: ENCRYPT encrypts under the masked, normalized session key of BDK and KSN, clears K, TK, BDK and
BDK_LEN, and changes nothing else; its errors come in the order BDK_LEN, KSN_LEN, PT_LEN. -/
def Obligations.EncryptCommand : Prop :=
  ∀ s : State,
    (s.bdkLen = 16 → s.ksnLen = 10 → s.ptLen.toNat ≤ s.dataBytes.toNat → WrittenBelow s.data s.ptLen.toNat → ∃ m,
      exec .encrypt s =
        .next { s with
          data := m, ctLen := BitVec.ofNat 32 ((s.ptLen.toNat + 7) / 8 * 8)
          k := 0, tk := 0, bdk := 0, bdkLen := 0, status := doneStatus s.status, pending := none } ∧
      EncryptedData (normalizeKey (applyDataVariant (sessionWalk (deriveIpek s.bdk s.ksn) s.ksn))) s m) ∧
    (s.bdkLen ≠ 16 → exec .encrypt s = .next { s with status := failedStatus 1 s.status, pending := none }) ∧
    (s.bdkLen = 16 → s.ksnLen ≠ 10 →
      exec .encrypt s = .next { s with status := failedStatus 2 s.status, pending := none }) ∧
    (s.bdkLen = 16 → s.ksnLen = 10 → s.dataBytes.toNat < s.ptLen.toNat →
      exec .encrypt s = .next { s with status := failedStatus 6 s.status, pending := none })

/-- 46_control.md R201: every data register becomes 0 and every DATA byte reads 0; CTRL and OVR stay. -/
def Obligations.ZeroizeCommand : Prop :=
  ∀ s : State, ∃ m,
    exec .zeroize s =
      .next { s with
        bdk := 0, ksn := 0, k := 0, tk := 0, ksi := 0, reg := 0, data := m
        bdkLen := 0, ksnLen := 0, ptLen := 0, ctLen := 0, ctr := 0
        status := doneStatus s.status, pending := none } ∧
    ∀ a, a < s.dataBytes.toNat → m.read a = some 0

/-! ### Rules over all commands -/

/-- 60_exceptions.md R212: ILLEGAL first, then the first of BADPOS, BDK_LEN, KSN_LEN, PT_LEN that applies, is what STATUS
records, and only it; `check` is R212's own listing. -/
def Obligations.ErrorsFollowCheckOrder : Prop :=
  ∀ (s : State) (w : Word), s.pending = some w →
    (IllegalWord w → ∃ t, engineTurn s = .next t ∧ Status.errCode t.status = 4) ∧
    (∀ i, decodeWord w = .ok i → ∀ e, check i s = some e →
      ∃ t, engineTurn s = .next t ∧ Status.errCode t.status = e.code) ∧
    (∀ i, decodeWord w = .ok i → check i s = none →
      ∀ t, engineTurn s = .next t → Status.errCode t.status = 0)

/-- 60_exceptions.md R211: a command that ends with an error has changed nothing but STATUS and pending, whatever state it
started from. -/
def Obligations.FailedCommandChangesOnlyStatus : Prop :=
  ∀ (i : Instr) (s t : State), exec i s = .next t → Status.err t.status = true →
    t = { s with status := t.status, pending := none }

/-- 10_state.md R41: every completion sets DONE and clears BUSY and pending; ERR is 1 exactly with a code; OVR and the
reserved bits are kept. -/
def Obligations.EveryCompletionSetsDone : Prop :=
  ∀ (i : Instr) (s t : State), exec i s = .next t →
    t.pending = none ∧ Status.busy t.status = false ∧ Status.done t.status = true ∧
    (Status.err t.status = true ↔ Status.errCode t.status ≠ 0) ∧ Status.ovr t.status = Status.ovr s.status ∧
    t.status &&& 0xFFFFF0F0 = s.status &&& 0xFFFFF0F0

/-- 60_exceptions.md R211, 93 I2: no command is refused, every command but ECB and ENCRYPT always completes, and these
two stop only on an unwritten plaintext byte. -/
def Obligations.CommandsStopOnlyOnUnwrittenData : Prop :=
  ∀ (i : Instr) (s : State),
    (∃ t, exec i s = .next t) ∨
    ((i = .ecb ∨ i = .encrypt) ∧
      ∃ a, exec i s = .fault (.unwrittenData a) ∧ a < s.ptLen.toNat ∧ s.data.read a = none)

/-- 10_state.md R21, the column "engine writes it": which commands can change which register, and that no command changes
CTRL, DATABYTES or what the host and platform do next. DATA is compared byte by byte. -/
def Obligations.EngineWritesColumn : Prop :=
  ∀ (i : Instr) (s t : State), exec i s = .next t →
    (t.bdkLen ≠ s.bdkLen → i = .ipek ∨ i = .encrypt ∨ i = .zeroize) ∧
    (t.ksnLen ≠ s.ksnLen → i = .zeroize) ∧
    (t.ptLen ≠ s.ptLen → i = .zeroize) ∧
    (t.ctLen ≠ s.ctLen → i = .ecb ∨ i = .encrypt ∨ i = .zeroize) ∧
    (t.ctr ≠ s.ctr → i = .extctr ∨ i = .zeroize) ∧
    (t.bdk ≠ s.bdk → i = .ipek ∨ i = .encrypt ∨ i = .zeroize) ∧
    (t.ksn ≠ s.ksn → i = .zeroize) ∧
    (t.k ≠ s.k → i = .ipek ∨ i = .nrkgp ∨ i = .walk ∨ i = .variant ∨ i = .encrypt ∨ i = .zeroize) ∧
    (t.tk ≠ s.tk → i = .norm ∨ i = .encrypt ∨ i = .zeroize) ∧
    (∀ a, t.data.read a ≠ s.data.read a → i = .ecb ∨ i = .encrypt ∨ i = .zeroize) ∧
    (t.ksi ≠ s.ksi → i = .extksi ∨ i = .zeroize) ∧
    (t.reg ≠ s.reg → (∃ p, i = .bldreg p) ∨ i = .zeroize) ∧
    t.ctrl = s.ctrl ∧ t.dataBytes = s.dataBytes ∧ t.schedule = s.schedule ∧ t.draws = s.draws ∧
    t.readData = s.readData

/-! ### The register window -/

/-- 10_state.md R22, R39: a CMD write with nothing pending issues the command, with one pending it is dropped and sets
OVR, and a read of CMD returns 0. -/
def Obligations.CmdWriteIssues : Prop :=
  (∀ (s : State) (w : Word), s.pending = none →
    hostAccess ⟨0x0000, 4, .write w⟩ s = .next { s with pending := some w, status := issuedStatus s.status }) ∧
  (∀ (s : State) (w : Word), s.pending ≠ none →
    hostAccess ⟨0x0000, 4, .write w⟩ s = .next { s with status := s.status ||| 0x00000008 }) ∧
  (∀ s : State, hostAccess ⟨0x0000, 4, .read⟩ s = .next { s with readData := 0 })

/-- 20_memory.md R57, 60_exceptions.md R214: while a command is pending, a write to CMD, a length register or any operand
byte is dropped whole and sets only OVR. -/
def Obligations.PendingDropsOperandWrites : Prop :=
  ∀ (s : State) (o n : Nat) (v : Word), s.pending ≠ none → LegalAccess s.dataBytes.toNat o n →
    (o = 0x0000 ∨ o = 0x000C ∨ o = 0x0010 ∨ o = 0x0014 ∨
      ∃ j, j < n ∧ OperandOffset s.dataBytes.toNat (o + j)) →
    hostAccess ⟨o, n, .write v⟩ s = .next { s with status := s.status ||| 0x00000008 }

/-- 10_state.md R24. -/
def Obligations.StatusWriteClears : Prop :=
  ∀ (s : State) (v : Word), ∃ t,
    hostAccess ⟨0x0004, 4, .write v⟩ s = .next t ∧ t = { s with status := t.status } ∧
    (v.getLsbD 1 = true → Status.done t.status = false ∧ Status.err t.status = false ∧ Status.errCode t.status = 0) ∧
    (v.getLsbD 1 = false → Status.done t.status = Status.done s.status ∧
      Status.err t.status = Status.err s.status ∧ Status.errCode t.status = Status.errCode s.status) ∧
    (v.getLsbD 3 = true → Status.ovr t.status = false) ∧
    (v.getLsbD 3 = false → Status.ovr t.status = Status.ovr s.status) ∧
    (v.getLsbD 1 = false → v.getLsbD 3 = false → t = s) ∧
    Status.busy t.status = Status.busy s.status ∧ t.status &&& 0xFFFFF0F0 = s.status &&& 0xFFFFF0F0 ∧
    (Inv s → Status.busy s.status = true → v.getLsbD 3 = false → t = s)

/-- 10_state.md R25: a CTRL write is performed whether or not a command is pending and keeps only bit 0. -/
def Obligations.CtrlWriteKeepsOnlyIe : Prop :=
  ∀ (s : State) (v : Word), ∃ t,
    hostAccess ⟨0x0008, 4, .write v⟩ s = .next t ∧ t = { s with ctrl := t.ctrl } ∧
    t.ctrl.getLsbD 0 = v.getLsbD 0 ∧ ∀ j, 1 ≤ j → t.ctrl.getLsbD j = false

/-- 10_state.md R26 to R28, 20_memory.md R57: with nothing pending every value is written to a length register unchanged,
and nothing else changes. -/
def Obligations.LengthRegisterWrites : Prop :=
  ∀ (s : State) (v : Word), s.pending = none →
    hostAccess ⟨0x000C, 4, .write v⟩ s = .next { s with bdkLen := v } ∧
    hostAccess ⟨0x0010, 4, .write v⟩ s = .next { s with ksnLen := v } ∧
    hostAccess ⟨0x0014, 4, .write v⟩ s = .next { s with ptLen := v }

/-- 20_memory.md R57, R54, 10_state.md R32, R33, R34, R36: with nothing pending, an access of `n` bytes at `o` outside the
scalar registers writes byte `be_n(v)[j]` to the BDK, KSN, K or DATA byte at `o + j`, leaves every other byte of them as it
was, and changes nothing else. -/
def Obligations.ArrayWriteSetsBytes : Prop :=
  ∀ (s : State) (o n : Nat) (v : Word), s.pending = none → LegalAccess s.dataBytes.toNat o n → 0x0040 ≤ o →
    ∃ t, hostAccess ⟨o, n, .write v⟩ s = .next t ∧
      t = { s with bdk := t.bdk, ksn := t.ksn, k := t.k, data := t.data } ∧
      (∀ i, i < 16 → byteAt t.bdk i =
        if InRange o n (0x0040 + i) then (v >>> (8 * (o + n - 1 - (0x0040 + i)))).setWidth 8 else byteAt s.bdk i) ∧
      (∀ i, i < 10 → byteAt t.ksn i =
        if InRange o n (0x0050 + i) then (v >>> (8 * (o + n - 1 - (0x0050 + i)))).setWidth 8 else byteAt s.ksn i) ∧
      (∀ i, i < 16 → byteAt t.k i =
        if InRange o n (0x0060 + i) then (v >>> (8 * (o + n - 1 - (0x0060 + i)))).setWidth 8 else byteAt s.k i) ∧
      (∀ i, t.data.read i =
        if InRange o n (0x1000 + i) then some ((v >>> (8 * (o + n - 1 - (0x1000 + i)))).setWidth 8)
        else s.data.read i)

/-- 20_memory.md R52, R54, R56, R59, 10_state.md R31: a 32-bit read of STATUS, CTRL or DATABYTES returns the register at all
times, of the other scalar registers with nothing pending. `readData` is the model's own field (log entry 5). -/
def Obligations.ScalarReadsReturnRegister : Prop :=
  ∀ s : State,
    hostAccess ⟨0x0004, 4, .read⟩ s = .next { s with readData := s.status } ∧
    hostAccess ⟨0x0008, 4, .read⟩ s = .next { s with readData := s.ctrl } ∧
    hostAccess ⟨0x0020, 4, .read⟩ s = .next { s with readData := s.dataBytes } ∧
    (s.pending = none →
      hostAccess ⟨0x000C, 4, .read⟩ s = .next { s with readData := s.bdkLen } ∧
      hostAccess ⟨0x0010, 4, .read⟩ s = .next { s with readData := s.ksnLen } ∧
      hostAccess ⟨0x0014, 4, .read⟩ s = .next { s with readData := s.ptLen } ∧
      hostAccess ⟨0x0018, 4, .read⟩ s = .next { s with readData := s.ctLen } ∧
      hostAccess ⟨0x001C, 4, .read⟩ s = .next { s with readData := s.ctr })

/-- 20_memory.md R52, R56, R59, 10_state.md R33, R36 to R38: with nothing pending an 8-bit read returns the byte of KSN, KSI,
REG or written DATA at that offset; an 8- or 16-bit read of pad bytes returns 0, pending or not. `readData` is the model's
own field (log entry 5). -/
def Obligations.ByteReadsReturnByte : Prop :=
  (∀ (s : State) (i : Nat), s.pending = none →
    (i < 10 →
      hostAccess ⟨0x0050 + i, 1, .read⟩ s = .next { s with readData := (byteAt s.ksn i).setWidth 32 } ∧
      hostAccess ⟨0x0070 + i, 1, .read⟩ s = .next { s with readData := (byteAt s.ksi i).setWidth 32 } ∧
      hostAccess ⟨0x0080 + i, 1, .read⟩ s = .next { s with readData := (byteAt s.reg i).setWidth 32 }) ∧
    (∀ b, i < s.dataBytes.toNat → s.data.read i = some b →
      hostAccess ⟨0x1000 + i, 1, .read⟩ s = .next { s with readData := b.setWidth 32 })) ∧
  (∀ (s : State) (o : Nat), o ∈ [0x005A, 0x005B, 0x007A, 0x007B, 0x008A, 0x008B] →
    hostAccess ⟨o, 1, .read⟩ s = .next { s with readData := 0 }) ∧
  (∀ (s : State) (o : Nat), o ∈ [0x005A, 0x007A, 0x008A] →
    hostAccess ⟨o, 2, .read⟩ s = .next { s with readData := 0 })

/-- 20_memory.md R54: with nothing pending a 32-bit read returns what the 8-bit reads of its four bytes return, the byte at
the lowest offset most significant, and a 16-bit read likewise (`readData`: log entry 5). -/
def Obligations.WideReadIsBigEndian : Prop :=
  ∀ (s : State) (o n : Nat) (t : State), s.pending = none → 0x0040 ≤ o →
    hostAccess ⟨o, n, .read⟩ s = .next t →
    ∀ j, j < n → ∃ u, hostAccess ⟨o + j, 1, .read⟩ s = .next u ∧
      u.readData = ((t.readData >>> (8 * (n - 1 - j))).setWidth 8).setWidth 32

/-- 20_memory.md R56, R61: a read changes no state of the block, and with nothing pending reading again returns the
same value. `readData` and `draws` are the model's own fields (log entries 5 and 4). -/
def Obligations.ReadsChangeNothing : Prop :=
  ∀ (s t : State) (o n : Nat), hostAccess ⟨o, n, .read⟩ s = .next t →
    t = { s with readData := t.readData, draws := t.draws } ∧
    (s.pending = none → hostAccess ⟨o, n, .read⟩ t = .next t)

/-- 10_state.md R32, R34, 20_memory.md R56, R59: a read of BDK or K bytes returns 0, pending or not
(`readData` is the model's own field, log entry 5). -/
def Obligations.KeyRegistersReadZero : Prop :=
  ∀ (s : State) (o n : Nat), (n = 1 ∨ n = 2 ∨ n = 4) → o % n = 0 →
    ((0x0040 ≤ o ∧ o + n ≤ 0x0050) ∨ (0x0060 ≤ o ∧ o + n ≤ 0x0070)) →
    hostAccess ⟨o, n, .read⟩ s = .next { s with readData := 0 }

/-- 20_memory.md R58, R55, 93 I10: an access faults as a bus error exactly when its width is not 1, 2 or 4, it is not
naturally aligned, it is narrow at offsets 0x0000 to 0x003F, or it covers an unassigned offset. That the run
stops there is I10's (log entry 8). -/
def Obligations.BusErrorsFault : Prop :=
  ∀ (s : State) (o n : Nat) (op : AccessOp),
    hostAccess ⟨o, n, op⟩ s = .fault (.busError o n) ↔
      ¬ (n = 1 ∨ n = 2 ∨ n = 4) ∨ o % n ≠ 0 ∨ (o < 0x0040 ∧ n ≠ 4) ∨
        ∃ j, j < n ∧ UnassignedOffset s.dataBytes.toNat (o + j)

/-- 93_implementation_defined.md I2: a host read of an unwritten DATA byte, with nothing pending, is a fault
(log entry 2). -/
def Obligations.UnwrittenDataReadFaults : Prop :=
  ∀ (s : State) (i : Nat), s.pending = none → i < s.dataBytes.toNat → s.data.read i = none →
    hostAccess ⟨0x1000 + i, 1, .read⟩ s = .fault (.unwrittenData i)

/-- 20_memory.md R57, 10_state.md R29 to R31, R37, R38: a write that covers only read-only and pad bytes changes nothing, pending
or not. -/
def Obligations.ReadOnlyWritesIgnored : Prop :=
  ∀ (s : State) (o n : Nat) (v : Word), LegalAccess s.dataBytes.toNat o n →
    (o = 0x0018 ∨ o = 0x001C ∨ o = 0x0020 ∨
      (0x0040 ≤ o ∧ ∀ j, j < n → ¬ OperandOffset s.dataBytes.toNat (o + j))) →
    hostAccess ⟨o, n, .write v⟩ s = .next s

/-- 10_state.md R21, the column "host": no host access changes CT_LEN, CTR, DATABYTES, TK, KSI or REG, none clears pending,
and none is refused. -/
def Obligations.HostCannotWriteEngineRegisters : Prop :=
  ∀ (s : State) (a : Access),
    (∀ r, hostAccess a s ≠ .refused r) ∧
    ∀ t, hostAccess a s = .next t →
      t.ctLen = s.ctLen ∧ t.ctr = s.ctr ∧ t.dataBytes = s.dataBytes ∧ t.tk = s.tk ∧ t.ksi = s.ksi ∧ t.reg = s.reg ∧
      (s.pending ≠ none → t.pending = s.pending)

/-- 20_memory.md R51: a host address in the window is an access at its offset, any other does not reach the block. Where the
window lies is uninterpreted (log entry 6). -/
def Obligations.WindowPlacement : Prop :=
  ∀ (s : State) (addr n : Nat) (op : AccessOp),
    (∀ o, o < 0x10000 → addr = Config.windowBase + o → busCycle addr n op s = hostAccess ⟨o, n, op⟩ s) ∧
    (addr < Config.windowBase ∨ Config.windowBase + 0x10000 ≤ addr → busCycle addr n op s = .next s) ∧
    Config.windowBase % 65536 = 0

/-- 20_memory.md R59, 93 I1: a read of a length register, CT_LEN, CTR, KSN, KSI, REG or DATA, written or not, while a command is
pending returns a fresh unspecified value and changes no state of the block; write-only and pad bytes return 0. That the
value is byte `j` of the next draw in each unspecified lane, lane 0 the most significant, and that in a mixed access each
byte follows its own class, is the model's (log entry 4). -/
def Obligations.PendingReadIsUnspecified : Prop :=
  ∀ s : State, s.pending ≠ none →
    (∀ o ∈ [0x000C, 0x0010, 0x0014, 0x0018, 0x001C],
      hostAccess ⟨o, 4, .read⟩ s =
        .next { s with readData := Config.freeRead s.draws, draws := s.draws + 1 }) ∧
    ∀ o n, LegalAccess s.dataBytes.toNat o n → 0x0040 ≤ o → ∃ t,
      hostAccess ⟨o, n, .read⟩ s = .next t ∧ t = { s with readData := t.readData, draws := t.draws } ∧
      t.readData >>> (8 * n) = 0 ∧
      (∀ j, j < n →
        (UnspecifiedOffset s.dataBytes.toNat (o + j) →
          (t.readData >>> (8 * (n - 1 - j))).setWidth 8 = (Config.freeRead s.draws >>> (8 * (3 - j))).setWidth 8) ∧
        (¬ UnspecifiedOffset s.dataBytes.toNat (o + j) → (t.readData >>> (8 * (n - 1 - j))).setWidth 8 = 0#8)) ∧
      ((∃ j, j < n ∧ UnspecifiedOffset s.dataBytes.toNat (o + j)) → t.draws = s.draws + 1) ∧
      ((∀ j, j < n → ¬ UnspecifiedOffset s.dataBytes.toNat (o + j)) → t.draws = s.draws)

/-! ### Keys, OVR and the interrupt line -/

/-- 10_state.md R42, 60_exceptions.md R230: what host accesses return and do does not depend on BDK, K and TK: from two states
that differ only there, an access stops alike or leaves two states that differ only there, with the same read data. That an
unspecified read is the same in both rests on log entry 4 (the same count draws the same word), unsafe for two runs. -/
def Obligations.HostReadsNeverShowKeys : Prop :=
  ∀ (s t : State) (a : Access), SameButKeys s t →
    (∃ f, hostAccess a s = .fault f ∧ hostAccess a t = .fault f) ∨
    (∃ s' t', hostAccess a s = .next s' ∧ hostAccess a t = .next t' ∧ SameButKeys s' t')

/-- 10_state.md R42: BDK, K and TK reach the rest of the state only through ECB and ENCRYPT: a step that is not the engine
completing one of them, from two states that differ only in those registers, stops alike or leaves two states that
differ only there. For a read while a command is pending that rests on log entry 4 (the same count draws the same word in
both), unsafe for two runs; which agent moves is the schedule's (log entry 1). -/
def Obligations.OnlyCiphertextCarriesKeys : Prop :=
  ∀ s t : State, SameButKeys s t →
    ((s.schedule = [] ∨ ∃ rest, s.schedule = .engine :: rest) →
      ∀ w, s.pending = some w → decodeWord w ≠ .ok .ecb ∧ decodeWord w ≠ .ok .encrypt) →
    (∃ f, step s = .fault f ∧ step t = .fault f) ∨
    (∃ s' t', step s = .next s' ∧ step t = .next t' ∧ SameButKeys s' t')

/-- 10_state.md R23: OVR is sticky: only a host write to STATUS with bit 3 = 1, or reset, clears it. Events are the
model's schedule (log entry 1). -/
def Obligations.OvrClearedOnlyByHostOrReset : Prop :=
  ∀ s t : State, step s = .next t → Status.ovr s.status = true → Status.ovr t.status = false →
    ∃ e rest, s.schedule = e :: rest ∧
      (e = .reset ∨
        (∃ v : Word, e = .access ⟨0x0004, 4, .write v⟩ ∧ v.getLsbD 3 = true) ∨
        (∃ v : Word, e = .busCycle (Config.windowBase + 0x0004) 4 (.write v) ∧ v.getLsbD 3 = true))

/-- 10_state.md R40: the equation. 60_exceptions.md R221, 70_reset_and_hazards.md R250: "it stays 1 until cleared or masked":
only reset, a CMD write that issues a command, a STATUS write with bit 1 = 1 and a CTRL write with bit 0 = 0 take the line
from 1 to 0. Events are the model's schedule (log entry 1). -/
def Obligations.IrqLevelStaysUntilCleared : Prop :=
  (∀ s : State, irq s = (s.ctrl.getLsbD 0 && s.status.getLsbD 1)) ∧
  (∀ s t : State, step s = .next t → irq s = true → irq t = false →
    ∃ e rest, s.schedule = e :: rest ∧
      (e = .reset ∨ ∃ (o : Nat) (v : Word),
        (e = .access ⟨o, 4, .write v⟩ ∨ e = .busCycle (Config.windowBase + o) 4 (.write v)) ∧
        ((o = 0x0000 ∧ s.pending = none) ∨ (o = 0x0004 ∧ v.getLsbD 1 = true) ∨
          (o = 0x0008 ∧ v.getLsbD 0 = false))))

/-- 60_exceptions.md R221: after a completion, with or without an error, the line is 1 exactly if it is enabled; an
acknowledging STATUS write and the next CMD write clear it. -/
def Obligations.IrqRaisedAndCleared : Prop :=
  (∀ (i : Instr) (s t : State), exec i s = .next t → irq t = s.ctrl.getLsbD 0) ∧
  (∀ (s t : State) (v : Word), v.getLsbD 1 = true → hostAccess ⟨0x0004, 4, .write v⟩ s = .next t → irq t = false) ∧
  (∀ (s t : State) (w : Word), s.pending = none → hostAccess ⟨0x0000, 4, .write w⟩ s = .next t → irq t = false)

/-! ### The cipher and the derivation -/

/-- 95_test_vectors.md KAT-1, KAT-3, KAT-5 (published), KAT-7. -/
def Obligations.DesKnownAnswers : Prop :=
  desE 0x133457799BBCDFF1 0x0123456789ABCDEF = 0x85E813540F0AB405 ∧
  desE 0x0101010101010101 0x95F8A5E5DD31D900 = 0x8000000000000000 ∧
  desE 0x8001010101010101 0x0000000000000000 = 0x95A8D72813DAA94D ∧
  tdesE 0 0 = 0x8CA64DE9C1B123A7

/-- 40_cipher_primitives.md R105: "For every k and x, `DES_D(k, DES_E(k, x)) = x`". -/
def Obligations.DesDecryptInvertsEncrypt : Prop := ∀ k x : Block, desD k (desE k x) = x

/-- 40_cipher_primitives.md R106, its own inference: the least significant bit of each key byte does not affect DES. -/
def Obligations.ParityBitsIgnored : Prop :=
  ∀ k k' x : Block, k &&& 0xFEFEFEFEFEFEFEFE = k' &&& 0xFEFEFEFEFEFEFEFE → desE k x = desE k' x ∧ desD k x = desD k' x

/-- 40_cipher_primitives.md R108, its own inference: equal first and second key thirds, parity bits aside, reduce TDES to single
DES under the last. -/
def Obligations.EqualThirdsReduceToSingleDes : Prop :=
  ∀ (tk : TripleKey) (x : Block),
    tk.extractLsb' 128 64 &&& 0xFEFEFEFEFEFEFEFE = tk.extractLsb' 64 64 &&& 0xFEFEFEFEFEFEFEFE →
    tdesE tk x = desE (tk.extractLsb' 0 64) x

/-- 42_ipek.md R144, its own inference: KSNs that agree in their leftmost 59 bits give the same IPEK. -/
def Obligations.IpekIgnoresCounter : Prop :=
  ∀ (bdk : Key) (ksn1 ksn2 : Ksn), ksn1 >>> 21 = ksn2 >>> 21 → deriveIpek bdk ksn1 = deriveIpek bdk ksn2

/-- 43_session_key.md R154 (a), (c), the spec's own inferences: counter 0 leaves the key, and bytes 0 and 1 of the KSN do not
reach the walk. -/
def Obligations.WalkIgnoresLeadingBytes : Prop :=
  (∀ (key : Key) (ksn : Ksn), ksn.toNat % 2 ^ 21 = 0 → sessionWalk key ksn = key) ∧
  (∀ (key : Key) (ksn1 ksn2 : Ksn), ksn1.extractLsb' 0 64 = ksn2.extractLsb' 0 64 →
    sessionWalk key ksn1 = sessionWalk key ksn2)

/-- 43_session_key.md R152: "The host reproduces one iteration of the walk by `BLDREG p` then `NRKGP`": with KSI the KSN's KSI
and counter bit `p` the only one set, the two commands leave in K what WALK leaves. -/
def Obligations.ManualStepIsWalkStep : Prop :=
  ∀ (s : State) (p : Nat), p ≤ 20 → s.ksnLen = 10 → s.ksi = s.ksn &&& 0xFFFFFFFFFFFFFFE00000 →
    s.ksn.toNat % 2 ^ 21 = 2 ^ p →
    ∃ t u v, exec (.bldreg p) s = .next t ∧ exec .nrkgp t = .next u ∧ exec .walk s = .next v ∧ u.k = v.k

/-- 45_ecb_encrypt.md R180: the ciphertext is `ceil8(n)` bytes. That the padding is zero bytes, so that appending as many as
fit below `ceil8(n)` changes nothing, is the spec's own inference ("[derived: from this rule]"). -/
def Obligations.PaddingIsZeroBytes : Prop :=
  ∀ (tk : TripleKey) (pt : List Byte),
    (ecbEncrypt tk pt).length = (pt.length + 7) / 8 * 8 ∧
    ∀ z, pt.length + z ≤ (pt.length + 7) / 8 * 8 → ecbEncrypt tk (pt ++ List.replicate z 0) = ecbEncrypt tk pt

/-- 45_ecb_encrypt.md R182, its own inference: where ENCRYPT completes without an error, so does the sequence `IPEK; WALK;
VARIANT; NORM; ECB`, with the same DATA, CT_LEN and STATUS, and the two differ at most in K and TK, which ENCRYPT clears. -/
def Obligations.EncryptEqualsSequence : Prop :=
  ∀ s t : State, exec .encrypt s = .next t → Status.err t.status = false →
    ∃ s1 s2 s3 s4 s5, exec .ipek s = .next s1 ∧ exec .walk s1 = .next s2 ∧ exec .variant s2 = .next s3 ∧
      exec .norm s3 = .next s4 ∧ exec .ecb s4 = .next s5 ∧ t = { s5 with k := 0, tk := 0 }
end

