-- ==== Sys2Proof/Laws/Bytes.lean ====
section
/-! SUPPORT. Bytes and slices of byte strings, bit selection, and block lists. -/

namespace Sys2Proof.Machine

/-! ### Bits of bytes and slices -/

theorem getLsbD_byteAt {w : Nat} (b : BitVec w) (i j : Nat) :
    (byteAt b i).getLsbD j = (decide (j < 8) && b.getLsbD (w - 8 * (i + 1) + j)) := by
  simp [byteAt]

theorem getLsbD_slice {w m : Nat} (b : BitVec w) (i j : Nat) :
    (slice m b i).getLsbD j = (decide (j < m) && b.getLsbD (w - 8 * i - m + j)) := by
  simp [slice]

theorem getLsbD_beByte (n : Nat) (v : Word) (j k : Nat) :
    (beByte n v j).getLsbD k = (decide (k < 8) && v.getLsbD (8 * (n - 1 - j) + k)) := by
  simp [beByte]

theorem getLsbD_allOnes8 (n : Nat) : (0xFF#8).getLsbD n = decide (n < 8) := by
  rw [show (0xFF#8) = BitVec.allOnes 8 by decide, BitVec.getLsbD_allOnes]

/-- The bits of a string after one byte is written. -/
theorem getLsbD_setByte {w : Nat} (b : BitVec w) (i : Nat) (v : Byte) (hi : 8 * (i + 1) ≤ w) (j : Nat) :
    (setByte b i v).getLsbD j =
      if w - 8 * (i + 1) ≤ j ∧ j < w - 8 * (i + 1) + 8 then v.getLsbD (j - (w - 8 * (i + 1))) else b.getLsbD j := by
  simp only [setByte, BitVec.getLsbD_or, BitVec.getLsbD_and, BitVec.getLsbD_not, BitVec.getLsbD_shiftLeft,
    BitVec.getLsbD_setWidth, getLsbD_allOnes8]
  by_cases hj : j < w
  · by_cases h1 : w - 8 * (i + 1) ≤ j
    · by_cases h2 : j < w - 8 * (i + 1) + 8
      · simp [hj, h1, h2, show ¬ j < w - 8 * (i + 1) by omega, show j - (w - 8 * (i + 1)) < w by omega,
          show j - (w - 8 * (i + 1)) < 8 by omega]
      · rw [BitVec.getLsbD_of_ge v _ (show 8 ≤ j - (w - 8 * (i + 1)) by omega)]
        simp [hj, h2, show ¬ j < w - 8 * (i + 1) by omega, show ¬ j - (w - 8 * (i + 1)) < 8 by omega]
    · simp [hj, h1, show j < w - 8 * (i + 1) by omega]
  · rw [if_neg (by omega), BitVec.getLsbD_of_ge b j (by omega)]
    simp [hj]

/-- Reading the byte just written. -/
theorem byteAt_setByte_same {w : Nat} (b : BitVec w) (i : Nat) (v : Byte) (hi : 8 * (i + 1) ≤ w) :
    byteAt (setByte b i v) i = v := by
  apply BitVec.eq_of_getLsbD_eq
  intro j hj
  rw [getLsbD_byteAt, getLsbD_setByte _ _ _ hi, if_pos (by omega)]
  simp [hj]

/-- Every other byte is as before. -/
theorem byteAt_setByte_other {w : Nat} (b : BitVec w) {i j : Nat} (v : Byte) (hi : 8 * (i + 1) ≤ w)
    (hj : 8 * (j + 1) ≤ w) (h : j ≠ i) : byteAt (setByte b i v) j = byteAt b j := by
  apply BitVec.eq_of_getLsbD_eq
  intro k hk
  rw [getLsbD_byteAt, getLsbD_byteAt, getLsbD_setByte _ _ _ hi, if_neg (by omega)]

theorem byteAt_setByte {w : Nat} (b : BitVec w) (i j : Nat) (v : Byte) (hi : 8 * (i + 1) ≤ w)
    (hj : 8 * (j + 1) ≤ w) : byteAt (setByte b i v) j = if j = i then v else byteAt b j := by
  split
  · subst_vars
    exact byteAt_setByte_same b _ v hi
  · exact byteAt_setByte_other b v hi hj ‹_›

/-- Two strings of `n` bytes with the same bytes are equal. -/
theorem eq_of_byteAt_eq {n : Nat} {a b : BitVec (8 * n)} (h : ∀ i, i < n → byteAt a i = byteAt b i) : a = b := by
  apply BitVec.eq_of_getLsbD_eq
  intro j hj
  have hi := congrArg (fun x => x.getLsbD (j % 8)) (h (n - 1 - j / 8) (by omega))
  simp only [getLsbD_byteAt, show j % 8 < 8 by omega, decide_true, Bool.true_and] at hi
  rwa [show 8 * n - 8 * (n - 1 - j / 8 + 1) + j % 8 = j by omega] at hi

/-! ### Bit selection by a table -/

theorem foldl_select (t : List Nat) (f : Nat → Nat) (a : Nat) :
    t.foldl (fun acc i => 2 * acc + f i) a = a * 2 ^ t.length + t.foldl (fun acc i => 2 * acc + f i) 0 := by
  induction t generalizing a with
  | nil => simp
  | cons i t ih =>
    rw [List.foldl_cons, List.foldl_cons, ih (2 * a + f i), ih (2 * 0 + f i), List.length_cons]
    ring

theorem foldl_select_lt (t : List Nat) (f : Nat → Nat) (hf : ∀ i, f i < 2) :
    t.foldl (fun acc i => 2 * acc + f i) 0 < 2 ^ t.length := by
  induction t with
  | nil => simp
  | cons i t ih =>
    rw [List.foldl_cons, foldl_select t f, List.length_cons, pow_succ]
    have := hf i
    have hp : (2 * 0 + f i) * 2 ^ t.length ≤ 1 * 2 ^ t.length := Nat.mul_le_mul_right _ (by omega)
    omega

theorem testBit_foldl_select (t : List Nat) (f : Nat → Nat) (hf : ∀ i, f i < 2) (j : Nat) (hj : j < t.length) :
    (t.foldl (fun acc i => 2 * acc + f i) 0).testBit (t.length - 1 - j) = (f t[j] == 1) := by
  induction t generalizing j with
  | nil => simp at hj
  | cons i t ih =>
    rw [List.foldl_cons, foldl_select t f]
    have hlt := foldl_select_lt t f hf
    rw [Nat.mul_comm (2 * 0 + f i), Nat.testBit_two_pow_mul_add _ hlt]
    cases j with
    | zero =>
      simp only [List.length_cons, List.getElem_cons_zero]
      rw [if_neg (by omega), show t.length + 1 - 1 - 0 - t.length = 0 by omega]
      have := hf i
      rcases h : f i with _ | _ | _
      · simp
      · simp
      · omega
    | succ j =>
      simp only [List.length_cons, List.getElem_cons_succ] at hj ⊢
      rw [if_pos (by omega), show t.length + 1 - 1 - (j + 1) = t.length - 1 - j by omega]
      exact ih j (by omega)

/-- "an output bit `i` of a table `T` is input bit `T[i]`" (R101), bits counted from 0 at the most significant. -/
theorem getMsbD_permute {w : Nat} (t : List Nat) (x : BitVec w) (j : Nat) (hj : j < t.length)
    (ht : 1 ≤ t[j] ∧ t[j] ≤ w) : (permute t.length t x).getMsbD j = x.getMsbD (t[j] - 1) := by
  have hf : ∀ i, x.toNat >>> (w - i) % 2 < 2 := fun i => Nat.mod_lt _ (by omega)
  rw [BitVec.getMsbD_eq_getLsbD, BitVec.getMsbD_eq_getLsbD]
  have hjd : decide (j < t.length) = true := by simp [hj]
  have htd : decide (t[j] - 1 < w) = true := by simp; omega
  rw [hjd, htd, Bool.true_and, Bool.true_and, permute, BitVec.getLsbD_ofNat,
    testBit_foldl_select t _ hf j hj]
  rw [show decide (t.length - 1 - j < t.length) = true by simp; omega, Bool.true_and,
    show w - 1 - (t[j] - 1) = w - t[j] by omega, BitVec.getLsbD, Nat.testBit, Nat.one_and_eq_mod_two]
  rcases Nat.mod_two_eq_zero_or_one (x.toNat >>> (w - t[j])) with h | h <;> simp [h]

/-! ### Padded lengths and block lists -/

theorem le_ceil8 (n : Nat) : n ≤ ceil8 n := by unfold ceil8; omega

theorem ceil8_mod (n : Nat) : ceil8 n % 8 = 0 := by unfold ceil8; omega

theorem ceil8_lt (n : Nat) : ceil8 n < n + 8 := by unfold ceil8; omega

theorem ceil8_le {n m : Nat} (h : n ≤ m) (hm : m % 8 = 0) : ceil8 n ≤ m := by unfold ceil8; omega

@[simp] theorem length_blockBytes (x : Block) : (blockBytes x).length = 8 := by simp [blockBytes]

theorem getElem?_blockBytes (x : Block) {i : Nat} (h : i < 8) : (blockBytes x)[i]? = some (byteAt x i) := by
  simp [blockBytes, h]

theorem length_padPlaintext (pt : List Byte) : (padPlaintext pt).length = ceil8 pt.length := by
  have := le_ceil8 pt.length
  simp only [padPlaintext, List.length_append, List.length_replicate]
  omega

theorem length_flatMap_eight {α : Type} (f : Nat → List α) (hf : ∀ i, (f i).length = 8) (n : Nat) :
    ((List.range n).flatMap f).length = 8 * n := by
  simp [List.length_flatMap, hf, Nat.mul_comm]

/-- Byte `i` of a list of blocks is byte `i % 8` of block `i / 8`. -/
theorem getElem?_flatMap_eight {α : Type} (f : Nat → List α) (hf : ∀ i, (f i).length = 8) (n i : Nat)
    (h : i < 8 * n) : ((List.range n).flatMap f)[i]? = (f (i / 8))[i % 8]? := by
  induction n with
  | zero => omega
  | succ n ih =>
    rw [List.range_succ, List.flatMap_append]
    simp only [List.flatMap_cons, List.flatMap_nil, List.append_nil]
    by_cases hi : i < 8 * n
    · rw [List.getElem?_append_left (by rw [length_flatMap_eight f hf]; exact hi)]
      exact ih hi
    · rw [List.getElem?_append_right (by rw [length_flatMap_eight f hf]; omega), length_flatMap_eight f hf,
        show i / 8 = n by omega, show i - 8 * n = i % 8 by omega]

end Sys2Proof.Machine
end

