-- ==== Sys2Proof/Laws/Memory.lean ====
section
/-! SUPPORT. DATA: reads after writes, and that every operation keeps the canonical form and the bound. -/

namespace Sys2Proof.Machine

/-! ### Reading -/

@[simp] theorem Memory.read_nil (i : Nat) : Memory.read [] i = none := rfl

theorem Memory.read_eq_none_of_risingFrom {m : Memory} {lo i : Nat} (h : Memory.risingFrom lo m = true) (hi : i < lo) :
    m.read i = none := by
  induction m generalizing lo with
  | nil => rfl
  | cons c m ih =>
    obtain ⟨x, v⟩ := c
    simp only [Memory.risingFrom, Bool.and_eq_true, decide_eq_true_eq] at h
    rw [Memory.read, if_neg (by omega)]
    exact ih h.2 (by omega)

/-- A read after a write to the same index gives the byte written. -/
@[simp] theorem Memory.read_write_same (m : Memory) (i : Nat) (b : Byte) : (m.write i b).read i = some b := by
  induction m with
  | nil => simp [Memory.write, Memory.read]
  | cons c m ih =>
    obtain ⟨x, v⟩ := c
    simp only [Memory.write]
    split
    · simp [Memory.read]
    · split
      · simp [Memory.read]
      · rw [Memory.read, if_neg (by omega)]
        exact ih

/-- A write leaves every other index alone. -/
theorem Memory.read_write_other (m : Memory) {i j : Nat} (b : Byte) (h : j ≠ i) :
    (m.write i b).read j = m.read j := by
  induction m with
  | nil => simp [Memory.write, Memory.read, Ne.symm h]
  | cons c m ih =>
    obtain ⟨x, v⟩ := c
    simp only [Memory.write]
    split
    · simp [Memory.read, Ne.symm h]
    · split
      · subst_vars
        simp [Memory.read, Ne.symm h]
      · simp [Memory.read, ih]

theorem Memory.read_write (m : Memory) (i j : Nat) (b : Byte) :
    (m.write i b).read j = if j = i then some b else m.read j := by
  split
  · subst_vars
    exact Memory.read_write_same ..
  · exact Memory.read_write_other _ _ ‹_›

/-- What a range write leaves at each index. -/
theorem Memory.read_writeRange (m : Memory) (i : Nat) (bs : List Byte) (j : Nat) :
    (m.writeRange i bs).read j =
      if i ≤ j ∧ j < i + bs.length then bs[j - i]? else m.read j := by
  induction bs generalizing m i with
  | nil => simp [Memory.writeRange]
  | cons b bs ih =>
    rw [Memory.writeRange, ih, List.length_cons, Memory.read_write]
    by_cases h1 : j = i
    · subst h1
      simp
    · by_cases h2 : i + 1 ≤ j ∧ j < i + 1 + bs.length
      · rw [if_pos h2, if_pos (by omega)]
        obtain ⟨k, rfl⟩ : ∃ k, j = i + 1 + k := ⟨j - (i + 1), by omega⟩
        rw [show i + 1 + k - (i + 1) = k by omega, show i + 1 + k - i = k + 1 by omega, List.getElem?_cons_succ]
      · rw [if_neg h2, if_neg h1, if_neg (by omega)]

theorem Memory.read_zerosFrom (i n j : Nat) :
    (Memory.zerosFrom i n).read j = if i ≤ j ∧ j < i + n then some 0 else none := by
  induction n generalizing i with
  | zero => simp [Memory.zerosFrom]
  | succ n ih =>
    rw [Memory.zerosFrom, Memory.read, ih]
    by_cases h : i = j
    · subst h
      simp
    · rw [if_neg h]
      by_cases h2 : i + 1 ≤ j ∧ j < i + 1 + n
      · rw [if_pos h2, if_pos (by omega)]
      · rw [if_neg h2, if_neg (by omega)]

/-! ### Reading a range -/

/-- A range read answers exactly the bytes that stand there. -/
theorem Memory.readRange_ok {m : Memory} {i n : Nat} {bs : List Byte} (h : m.readRange i n = .ok bs) :
    bs.length = n ∧ ∀ j, j < n → m.read (i + j) = bs[j]? := by
  induction n generalizing i bs with
  | zero =>
    simp only [Memory.readRange, Except.ok.injEq] at h
    subst h
    simp
  | succ n ih =>
    simp only [Memory.readRange] at h
    split at h
    · cases h
    · rename_i b hb
      split at h
      · cases h
      · rename_i bs' hbs
        simp only [Except.ok.injEq] at h
        subst h
        obtain ⟨hl, hr⟩ := ih hbs
        refine ⟨by simp [hl], fun j hj => ?_⟩
        cases j with
        | zero => simpa using hb
        | succ j => simpa [Nat.add_assoc, Nat.add_comm 1 j] using hr j (by omega)

/-- A range read stops at the first index that nothing has written. -/
theorem Memory.readRange_error {m : Memory} {i n k : Nat} (h : m.readRange i n = .error k) :
    i ≤ k ∧ k < i + n ∧ m.read k = none ∧ ∀ j, i ≤ j → j < k → (m.read j).isSome = true := by
  induction n generalizing i with
  | zero => simp [Memory.readRange] at h
  | succ n ih =>
    simp only [Memory.readRange] at h
    split at h
    · rename_i hb
      simp only [Except.error.injEq] at h
      subst h
      exact ⟨le_rfl, by omega, hb, fun j h1 h2 => by omega⟩
    · rename_i b hb
      split at h
      · rename_i k' hk
        simp only [Except.error.injEq] at h
        subst h
        obtain ⟨h1, h2, h3, h4⟩ := ih hk
        refine ⟨by omega, by omega, h3, fun j hj hjk => ?_⟩
        rcases Nat.eq_or_lt_of_le hj with rfl | hlt
        · simp [hb]
        · exact h4 j (by omega) hjk
      · cases h

/-- A range that is written through can be read. -/
theorem Memory.readRange_isOk {m : Memory} {i n : Nat} (h : ∀ j, i ≤ j → j < i + n → (m.read j).isSome = true) :
    ∃ bs, m.readRange i n = .ok bs := by
  cases hr : m.readRange i n with
  | ok bs => exact ⟨bs, rfl⟩
  | error k =>
    obtain ⟨h1, h2, h3, -⟩ := Memory.readRange_error hr
    have hk := h k h1 h2
    simp [h3] at hk

/-! ### The canonical form -/

theorem Memory.risingFrom_mono {m : Memory} {lo lo' : Nat} (h : Memory.risingFrom lo m = true) (hl : lo' ≤ lo) :
    Memory.risingFrom lo' m = true := by
  cases m with
  | nil => rfl
  | cons c m =>
    obtain ⟨x, v⟩ := c
    simp only [Memory.risingFrom, Bool.and_eq_true, decide_eq_true_eq] at h ⊢
    exact ⟨by omega, h.2⟩

theorem Memory.risingFrom_write {m : Memory} {lo i : Nat} (b : Byte) (h : Memory.risingFrom lo m = true)
    (hi : lo ≤ i) : Memory.risingFrom lo (m.write i b) = true := by
  induction m generalizing lo with
  | nil => simp [Memory.write, Memory.risingFrom, hi]
  | cons c m ih =>
    obtain ⟨x, v⟩ := c
    simp only [Memory.risingFrom, Bool.and_eq_true, decide_eq_true_eq] at h
    simp only [Memory.write]
    split
    · simp only [Memory.risingFrom, Bool.and_eq_true, decide_eq_true_eq]
      exact ⟨hi, by omega, h.2⟩
    · split
      · subst_vars
        simpa only [Memory.risingFrom, Bool.and_eq_true, decide_eq_true_eq] using h
      · simp only [Memory.risingFrom, Bool.and_eq_true, decide_eq_true_eq]
        exact ⟨h.1, ih h.2 (by omega)⟩

/-- A write keeps the canonical form. -/
theorem Memory.wf_write {m : Memory} (i : Nat) (b : Byte) (h : m.wf = true) : (m.write i b).wf = true :=
  Memory.risingFrom_write b h (Nat.zero_le i)

theorem Memory.wf_writeRange {m : Memory} (i : Nat) (bs : List Byte) (h : m.wf = true) :
    (m.writeRange i bs).wf = true := by
  induction bs generalizing m i with
  | nil => exact h
  | cons b bs ih => exact ih (i + 1) (Memory.wf_write i b h)

theorem Memory.risingFrom_zerosFrom (i n : Nat) : Memory.risingFrom i (Memory.zerosFrom i n) = true := by
  induction n generalizing i with
  | zero => rfl
  | succ n ih => simp [Memory.zerosFrom, Memory.risingFrom, ih]

theorem Memory.wf_zerosFrom (n : Nat) : (Memory.zerosFrom 0 n).wf = true := Memory.risingFrom_zerosFrom 0 n

theorem Memory.wf_nil : Memory.wf [] = true := rfl

/-- Two canonical memories that read alike are equal. -/
theorem Memory.ext_of_risingFrom {m m' : Memory} {lo : Nat} (h : Memory.risingFrom lo m = true)
    (h' : Memory.risingFrom lo m' = true) (hr : ∀ i, m.read i = m'.read i) : m = m' := by
  induction m generalizing lo m' with
  | nil =>
    cases m' with
    | nil => rfl
    | cons c m' => simpa [Memory.read] using hr c.1
  | cons c m ih =>
    obtain ⟨x, v⟩ := c
    cases m' with
    | nil => simpa [Memory.read] using hr x
    | cons c' m' =>
      obtain ⟨y, u⟩ := c'
      simp only [Memory.risingFrom, Bool.and_eq_true, decide_eq_true_eq] at h h'
      have hxy : x = y := by
        rcases Nat.lt_trichotomy x y with hlt | rfl | hlt
        · have := hr x
          rw [Memory.read, if_pos rfl, Memory.read, if_neg (by omega),
            Memory.read_eq_none_of_risingFrom h'.2 (by omega)] at this
          cases this
        · rfl
        · have := hr y
          rw [Memory.read, if_neg (by omega), Memory.read_eq_none_of_risingFrom h.2 (by omega), Memory.read,
            if_pos rfl] at this
          cases this
      subst hxy
      have hv : v = u := by simpa [Memory.read] using hr x
      subst hv
      congr 1
      refine ih h.2 h'.2 fun i => ?_
      by_cases hi : x = i
      · rw [Memory.read_eq_none_of_risingFrom h.2 (by omega), Memory.read_eq_none_of_risingFrom h'.2 (by omega)]
      · simpa [Memory.read, hi] using hr i

theorem Memory.ext_of_wf {m m' : Memory} (h : m.wf = true) (h' : m'.wf = true) (hr : ∀ i, m.read i = m'.read i) :
    m = m' := Memory.ext_of_risingFrom h h' hr

/-! ### The bound -/

theorem Memory.within_iff {size : Nat} {m : Memory} : m.within size = true ↔ ∀ c ∈ m, c.1 < size := by
  simp [Memory.within]

theorem Memory.within_write {size i : Nat} {m : Memory} (b : Byte) (h : m.within size = true) (hi : i < size) :
    (m.write i b).within size = true := by
  induction m with
  | nil => simp [Memory.write, Memory.within, hi]
  | cons c m ih =>
    obtain ⟨x, v⟩ := c
    simp only [Memory.within, List.all_cons, Bool.and_eq_true, decide_eq_true_eq] at h ih ⊢
    simp only [Memory.write]
    split
    · simp [hi, h.1, h.2]
    · split
      · simp [hi, h.2]
      · simp [h.1, ih h.2]

theorem Memory.within_writeRange {size : Nat} {m : Memory} (i : Nat) (bs : List Byte) (h : m.within size = true)
    (hi : i + bs.length ≤ size) : (m.writeRange i bs).within size = true := by
  induction bs generalizing m i with
  | nil => exact h
  | cons b bs ih =>
    rw [List.length_cons] at hi
    exact ih (i + 1) (Memory.within_write b h (by omega)) (by omega)

theorem Memory.within_zerosFrom (i n : Nat) : (Memory.zerosFrom i n).within (i + n) = true := by
  induction n generalizing i with
  | zero => rfl
  | succ n ih =>
    have := ih (i + 1)
    rw [show i + 1 + n = i + (n + 1) by omega] at this
    simp only [Memory.within, Memory.zerosFrom, List.all_cons, Bool.and_eq_true, decide_eq_true_eq] at this ⊢
    exact ⟨by omega, this⟩

end Sys2Proof.Machine
end

