-- ==== Sys2Proof/Laws/State.lean ====
section
/-! SUPPORT. One lemma per field per named update of State, each true by unfolding, so that no proof unfolds a record
update. -/

namespace Sys2Proof.Machine

/-! ### `issueCommand` -/

@[simp] theorem issueCommand_status (w : Word) (s : State) :
    (issueCommand w s).status = Status.issue s.status := rfl
@[simp] theorem issueCommand_ctrl (w : Word) (s : State) :
    (issueCommand w s).ctrl = s.ctrl := rfl
@[simp] theorem issueCommand_bdkLen (w : Word) (s : State) :
    (issueCommand w s).bdkLen = s.bdkLen := rfl
@[simp] theorem issueCommand_ksnLen (w : Word) (s : State) :
    (issueCommand w s).ksnLen = s.ksnLen := rfl
@[simp] theorem issueCommand_ptLen (w : Word) (s : State) :
    (issueCommand w s).ptLen = s.ptLen := rfl
@[simp] theorem issueCommand_ctLen (w : Word) (s : State) :
    (issueCommand w s).ctLen = s.ctLen := rfl
@[simp] theorem issueCommand_ctr (w : Word) (s : State) :
    (issueCommand w s).ctr = s.ctr := rfl
@[simp] theorem issueCommand_dataBytes (w : Word) (s : State) :
    (issueCommand w s).dataBytes = s.dataBytes := rfl
@[simp] theorem issueCommand_bdk (w : Word) (s : State) :
    (issueCommand w s).bdk = s.bdk := rfl
@[simp] theorem issueCommand_ksn (w : Word) (s : State) :
    (issueCommand w s).ksn = s.ksn := rfl
@[simp] theorem issueCommand_k (w : Word) (s : State) :
    (issueCommand w s).k = s.k := rfl
@[simp] theorem issueCommand_tk (w : Word) (s : State) :
    (issueCommand w s).tk = s.tk := rfl
@[simp] theorem issueCommand_data (w : Word) (s : State) :
    (issueCommand w s).data = s.data := rfl
@[simp] theorem issueCommand_ksi (w : Word) (s : State) :
    (issueCommand w s).ksi = s.ksi := rfl
@[simp] theorem issueCommand_reg (w : Word) (s : State) :
    (issueCommand w s).reg = s.reg := rfl
@[simp] theorem issueCommand_pending (w : Word) (s : State) :
    (issueCommand w s).pending = some w := rfl
@[simp] theorem issueCommand_schedule (w : Word) (s : State) :
    (issueCommand w s).schedule = s.schedule := rfl
@[simp] theorem issueCommand_draws (w : Word) (s : State) :
    (issueCommand w s).draws = s.draws := rfl
@[simp] theorem issueCommand_readData (w : Word) (s : State) :
    (issueCommand w s).readData = s.readData := rfl

/-! ### `completeCommand` -/

@[simp] theorem completeCommand_status (s : State) :
    (completeCommand s).status = Status.complete s.status := rfl
@[simp] theorem completeCommand_ctrl (s : State) :
    (completeCommand s).ctrl = s.ctrl := rfl
@[simp] theorem completeCommand_bdkLen (s : State) :
    (completeCommand s).bdkLen = s.bdkLen := rfl
@[simp] theorem completeCommand_ksnLen (s : State) :
    (completeCommand s).ksnLen = s.ksnLen := rfl
@[simp] theorem completeCommand_ptLen (s : State) :
    (completeCommand s).ptLen = s.ptLen := rfl
@[simp] theorem completeCommand_ctLen (s : State) :
    (completeCommand s).ctLen = s.ctLen := rfl
@[simp] theorem completeCommand_ctr (s : State) :
    (completeCommand s).ctr = s.ctr := rfl
@[simp] theorem completeCommand_dataBytes (s : State) :
    (completeCommand s).dataBytes = s.dataBytes := rfl
@[simp] theorem completeCommand_bdk (s : State) :
    (completeCommand s).bdk = s.bdk := rfl
@[simp] theorem completeCommand_ksn (s : State) :
    (completeCommand s).ksn = s.ksn := rfl
@[simp] theorem completeCommand_k (s : State) :
    (completeCommand s).k = s.k := rfl
@[simp] theorem completeCommand_tk (s : State) :
    (completeCommand s).tk = s.tk := rfl
@[simp] theorem completeCommand_data (s : State) :
    (completeCommand s).data = s.data := rfl
@[simp] theorem completeCommand_ksi (s : State) :
    (completeCommand s).ksi = s.ksi := rfl
@[simp] theorem completeCommand_reg (s : State) :
    (completeCommand s).reg = s.reg := rfl
@[simp] theorem completeCommand_pending (s : State) :
    (completeCommand s).pending = none := rfl
@[simp] theorem completeCommand_schedule (s : State) :
    (completeCommand s).schedule = s.schedule := rfl
@[simp] theorem completeCommand_draws (s : State) :
    (completeCommand s).draws = s.draws := rfl
@[simp] theorem completeCommand_readData (s : State) :
    (completeCommand s).readData = s.readData := rfl

/-! ### `raiseCmdError` -/

@[simp] theorem raiseCmdError_status (e : CmdError) (s : State) :
    (raiseCmdError e s).status = Status.fail s.status e := rfl
@[simp] theorem raiseCmdError_ctrl (e : CmdError) (s : State) :
    (raiseCmdError e s).ctrl = s.ctrl := rfl
@[simp] theorem raiseCmdError_bdkLen (e : CmdError) (s : State) :
    (raiseCmdError e s).bdkLen = s.bdkLen := rfl
@[simp] theorem raiseCmdError_ksnLen (e : CmdError) (s : State) :
    (raiseCmdError e s).ksnLen = s.ksnLen := rfl
@[simp] theorem raiseCmdError_ptLen (e : CmdError) (s : State) :
    (raiseCmdError e s).ptLen = s.ptLen := rfl
@[simp] theorem raiseCmdError_ctLen (e : CmdError) (s : State) :
    (raiseCmdError e s).ctLen = s.ctLen := rfl
@[simp] theorem raiseCmdError_ctr (e : CmdError) (s : State) :
    (raiseCmdError e s).ctr = s.ctr := rfl
@[simp] theorem raiseCmdError_dataBytes (e : CmdError) (s : State) :
    (raiseCmdError e s).dataBytes = s.dataBytes := rfl
@[simp] theorem raiseCmdError_bdk (e : CmdError) (s : State) :
    (raiseCmdError e s).bdk = s.bdk := rfl
@[simp] theorem raiseCmdError_ksn (e : CmdError) (s : State) :
    (raiseCmdError e s).ksn = s.ksn := rfl
@[simp] theorem raiseCmdError_k (e : CmdError) (s : State) :
    (raiseCmdError e s).k = s.k := rfl
@[simp] theorem raiseCmdError_tk (e : CmdError) (s : State) :
    (raiseCmdError e s).tk = s.tk := rfl
@[simp] theorem raiseCmdError_data (e : CmdError) (s : State) :
    (raiseCmdError e s).data = s.data := rfl
@[simp] theorem raiseCmdError_ksi (e : CmdError) (s : State) :
    (raiseCmdError e s).ksi = s.ksi := rfl
@[simp] theorem raiseCmdError_reg (e : CmdError) (s : State) :
    (raiseCmdError e s).reg = s.reg := rfl
@[simp] theorem raiseCmdError_pending (e : CmdError) (s : State) :
    (raiseCmdError e s).pending = none := rfl
@[simp] theorem raiseCmdError_schedule (e : CmdError) (s : State) :
    (raiseCmdError e s).schedule = s.schedule := rfl
@[simp] theorem raiseCmdError_draws (e : CmdError) (s : State) :
    (raiseCmdError e s).draws = s.draws := rfl
@[simp] theorem raiseCmdError_readData (e : CmdError) (s : State) :
    (raiseCmdError e s).readData = s.readData := rfl

/-! ### `dropWrite` -/

@[simp] theorem dropWrite_status (s : State) :
    (dropWrite s).status = Status.setOvr s.status := rfl
@[simp] theorem dropWrite_ctrl (s : State) :
    (dropWrite s).ctrl = s.ctrl := rfl
@[simp] theorem dropWrite_bdkLen (s : State) :
    (dropWrite s).bdkLen = s.bdkLen := rfl
@[simp] theorem dropWrite_ksnLen (s : State) :
    (dropWrite s).ksnLen = s.ksnLen := rfl
@[simp] theorem dropWrite_ptLen (s : State) :
    (dropWrite s).ptLen = s.ptLen := rfl
@[simp] theorem dropWrite_ctLen (s : State) :
    (dropWrite s).ctLen = s.ctLen := rfl
@[simp] theorem dropWrite_ctr (s : State) :
    (dropWrite s).ctr = s.ctr := rfl
@[simp] theorem dropWrite_dataBytes (s : State) :
    (dropWrite s).dataBytes = s.dataBytes := rfl
@[simp] theorem dropWrite_bdk (s : State) :
    (dropWrite s).bdk = s.bdk := rfl
@[simp] theorem dropWrite_ksn (s : State) :
    (dropWrite s).ksn = s.ksn := rfl
@[simp] theorem dropWrite_k (s : State) :
    (dropWrite s).k = s.k := rfl
@[simp] theorem dropWrite_tk (s : State) :
    (dropWrite s).tk = s.tk := rfl
@[simp] theorem dropWrite_data (s : State) :
    (dropWrite s).data = s.data := rfl
@[simp] theorem dropWrite_ksi (s : State) :
    (dropWrite s).ksi = s.ksi := rfl
@[simp] theorem dropWrite_reg (s : State) :
    (dropWrite s).reg = s.reg := rfl
@[simp] theorem dropWrite_pending (s : State) :
    (dropWrite s).pending = s.pending := rfl
@[simp] theorem dropWrite_schedule (s : State) :
    (dropWrite s).schedule = s.schedule := rfl
@[simp] theorem dropWrite_draws (s : State) :
    (dropWrite s).draws = s.draws := rfl
@[simp] theorem dropWrite_readData (s : State) :
    (dropWrite s).readData = s.readData := rfl

/-! ### `clearKeys` -/

@[simp] theorem clearKeys_status (s : State) :
    (clearKeys s).status = s.status := rfl
@[simp] theorem clearKeys_ctrl (s : State) :
    (clearKeys s).ctrl = s.ctrl := rfl
@[simp] theorem clearKeys_bdkLen (s : State) :
    (clearKeys s).bdkLen = 0 := rfl
@[simp] theorem clearKeys_ksnLen (s : State) :
    (clearKeys s).ksnLen = s.ksnLen := rfl
@[simp] theorem clearKeys_ptLen (s : State) :
    (clearKeys s).ptLen = s.ptLen := rfl
@[simp] theorem clearKeys_ctLen (s : State) :
    (clearKeys s).ctLen = s.ctLen := rfl
@[simp] theorem clearKeys_ctr (s : State) :
    (clearKeys s).ctr = s.ctr := rfl
@[simp] theorem clearKeys_dataBytes (s : State) :
    (clearKeys s).dataBytes = s.dataBytes := rfl
@[simp] theorem clearKeys_bdk (s : State) :
    (clearKeys s).bdk = 0 := rfl
@[simp] theorem clearKeys_ksn (s : State) :
    (clearKeys s).ksn = s.ksn := rfl
@[simp] theorem clearKeys_k (s : State) :
    (clearKeys s).k = 0 := rfl
@[simp] theorem clearKeys_tk (s : State) :
    (clearKeys s).tk = 0 := rfl
@[simp] theorem clearKeys_data (s : State) :
    (clearKeys s).data = s.data := rfl
@[simp] theorem clearKeys_ksi (s : State) :
    (clearKeys s).ksi = s.ksi := rfl
@[simp] theorem clearKeys_reg (s : State) :
    (clearKeys s).reg = s.reg := rfl
@[simp] theorem clearKeys_pending (s : State) :
    (clearKeys s).pending = s.pending := rfl
@[simp] theorem clearKeys_schedule (s : State) :
    (clearKeys s).schedule = s.schedule := rfl
@[simp] theorem clearKeys_draws (s : State) :
    (clearKeys s).draws = s.draws := rfl
@[simp] theorem clearKeys_readData (s : State) :
    (clearKeys s).readData = s.readData := rfl

/-! ### `resetBlock` -/

@[simp] theorem resetBlock_status (s : State) :
    (resetBlock s).status = 0 := rfl
@[simp] theorem resetBlock_ctrl (s : State) :
    (resetBlock s).ctrl = 0 := rfl
@[simp] theorem resetBlock_bdkLen (s : State) :
    (resetBlock s).bdkLen = 0 := rfl
@[simp] theorem resetBlock_ksnLen (s : State) :
    (resetBlock s).ksnLen = 0 := rfl
@[simp] theorem resetBlock_ptLen (s : State) :
    (resetBlock s).ptLen = 0 := rfl
@[simp] theorem resetBlock_ctLen (s : State) :
    (resetBlock s).ctLen = 0 := rfl
@[simp] theorem resetBlock_ctr (s : State) :
    (resetBlock s).ctr = 0 := rfl
@[simp] theorem resetBlock_dataBytes (s : State) :
    (resetBlock s).dataBytes = s.dataBytes := rfl
@[simp] theorem resetBlock_bdk (s : State) :
    (resetBlock s).bdk = 0 := rfl
@[simp] theorem resetBlock_ksn (s : State) :
    (resetBlock s).ksn = 0 := rfl
@[simp] theorem resetBlock_k (s : State) :
    (resetBlock s).k = 0 := rfl
@[simp] theorem resetBlock_tk (s : State) :
    (resetBlock s).tk = 0 := rfl
@[simp] theorem resetBlock_data (s : State) :
    (resetBlock s).data = [] := rfl
@[simp] theorem resetBlock_ksi (s : State) :
    (resetBlock s).ksi = 0 := rfl
@[simp] theorem resetBlock_reg (s : State) :
    (resetBlock s).reg = 0 := rfl
@[simp] theorem resetBlock_pending (s : State) :
    (resetBlock s).pending = none := rfl
@[simp] theorem resetBlock_schedule (s : State) :
    (resetBlock s).schedule = s.schedule := rfl
@[simp] theorem resetBlock_draws (s : State) :
    (resetBlock s).draws = s.draws := rfl
@[simp] theorem resetBlock_readData (s : State) :
    (resetBlock s).readData = s.readData := rfl

/-! ### `withPendingWord` -/

@[simp] theorem withPendingWord_status (s : State) (w : Word) :
    (withPendingWord s w).status = Status.issue s.status := rfl
@[simp] theorem withPendingWord_ctrl (s : State) (w : Word) :
    (withPendingWord s w).ctrl = s.ctrl := rfl
@[simp] theorem withPendingWord_bdkLen (s : State) (w : Word) :
    (withPendingWord s w).bdkLen = s.bdkLen := rfl
@[simp] theorem withPendingWord_ksnLen (s : State) (w : Word) :
    (withPendingWord s w).ksnLen = s.ksnLen := rfl
@[simp] theorem withPendingWord_ptLen (s : State) (w : Word) :
    (withPendingWord s w).ptLen = s.ptLen := rfl
@[simp] theorem withPendingWord_ctLen (s : State) (w : Word) :
    (withPendingWord s w).ctLen = s.ctLen := rfl
@[simp] theorem withPendingWord_ctr (s : State) (w : Word) :
    (withPendingWord s w).ctr = s.ctr := rfl
@[simp] theorem withPendingWord_dataBytes (s : State) (w : Word) :
    (withPendingWord s w).dataBytes = s.dataBytes := rfl
@[simp] theorem withPendingWord_bdk (s : State) (w : Word) :
    (withPendingWord s w).bdk = s.bdk := rfl
@[simp] theorem withPendingWord_ksn (s : State) (w : Word) :
    (withPendingWord s w).ksn = s.ksn := rfl
@[simp] theorem withPendingWord_k (s : State) (w : Word) :
    (withPendingWord s w).k = s.k := rfl
@[simp] theorem withPendingWord_tk (s : State) (w : Word) :
    (withPendingWord s w).tk = s.tk := rfl
@[simp] theorem withPendingWord_data (s : State) (w : Word) :
    (withPendingWord s w).data = s.data := rfl
@[simp] theorem withPendingWord_ksi (s : State) (w : Word) :
    (withPendingWord s w).ksi = s.ksi := rfl
@[simp] theorem withPendingWord_reg (s : State) (w : Word) :
    (withPendingWord s w).reg = s.reg := rfl
@[simp] theorem withPendingWord_pending (s : State) (w : Word) :
    (withPendingWord s w).pending = some w := rfl
@[simp] theorem withPendingWord_schedule (s : State) (w : Word) :
    (withPendingWord s w).schedule = .engine :: s.schedule := rfl
@[simp] theorem withPendingWord_draws (s : State) (w : Word) :
    (withPendingWord s w).draws = s.draws := rfl
@[simp] theorem withPendingWord_readData (s : State) (w : Word) :
    (withPendingWord s w).readData = s.readData := rfl

end Sys2Proof.Machine
end

