-- ==== Sys2Proof/Laws/Status.lean ====
section
/-! SUPPORT. The STATUS fields after each of the five ways STATUS is written. -/

namespace Sys2Proof.Machine

/-! ### Issue (R39) -/

@[simp] theorem Status.busy_issue (st : Word) : Status.busy (Status.issue st) = true := by
  simp [Status.busy, Status.issue]
@[simp] theorem Status.done_issue (st : Word) : Status.done (Status.issue st) = false := by
  simp [Status.done, Status.issue, Status.completionMask]
@[simp] theorem Status.err_issue (st : Word) : Status.err (Status.issue st) = false := by
  simp [Status.err, Status.issue, Status.completionMask]
@[simp] theorem Status.ovr_issue (st : Word) : Status.ovr (Status.issue st) = Status.ovr st := by
  simp [Status.ovr, Status.issue, Status.completionMask]
@[simp] theorem Status.errCode_issue (st : Word) : Status.errCode (Status.issue st) = 0 := by
  apply BitVec.eq_of_getLsbD_eq
  intro j hj
  interval_cases j <;> simp [Status.errCode, Status.issue, Status.completionMask]

/-! ### Completion (R41) -/

@[simp] theorem Status.busy_complete (st : Word) : Status.busy (Status.complete st) = false := by
  simp [Status.busy, Status.complete, Status.completionMask]
@[simp] theorem Status.done_complete (st : Word) : Status.done (Status.complete st) = true := by
  simp [Status.done, Status.complete]
@[simp] theorem Status.err_complete (st : Word) : Status.err (Status.complete st) = false := by
  simp [Status.err, Status.complete, Status.completionMask]
@[simp] theorem Status.ovr_complete (st : Word) : Status.ovr (Status.complete st) = Status.ovr st := by
  simp [Status.ovr, Status.complete, Status.completionMask]
@[simp] theorem Status.errCode_complete (st : Word) : Status.errCode (Status.complete st) = 0 := by
  apply BitVec.eq_of_getLsbD_eq
  intro j hj
  interval_cases j <;> simp [Status.errCode, Status.complete, Status.completionMask]

/-! ### Error completion (R41, R211) -/

@[simp] theorem Status.busy_fail (st : Word) (e : CmdError) : Status.busy (Status.fail st e) = false := by
  cases e <;> simp [Status.busy, Status.fail, Status.completionMask, CmdError.code]
@[simp] theorem Status.done_fail (st : Word) (e : CmdError) : Status.done (Status.fail st e) = true := by
  cases e <;> simp [Status.done, Status.fail, Status.completionMask, CmdError.code]
@[simp] theorem Status.err_fail (st : Word) (e : CmdError) : Status.err (Status.fail st e) = true := by
  cases e <;> simp [Status.err, Status.fail, Status.completionMask, CmdError.code]
@[simp] theorem Status.ovr_fail (st : Word) (e : CmdError) : Status.ovr (Status.fail st e) = Status.ovr st := by
  cases e <;> simp [Status.ovr, Status.fail, Status.completionMask, CmdError.code]
@[simp] theorem Status.errCode_fail (st : Word) (e : CmdError) : Status.errCode (Status.fail st e) = e.code := by
  apply BitVec.eq_of_getLsbD_eq
  intro j hj
  cases e <;> interval_cases j <;> simp [Status.errCode, Status.fail, Status.completionMask, CmdError.code]

/-! ### A dropped write (R57) -/

@[simp] theorem Status.busy_setOvr (st : Word) : Status.busy (Status.setOvr st) = Status.busy st := by
  simp [Status.busy, Status.setOvr]
@[simp] theorem Status.done_setOvr (st : Word) : Status.done (Status.setOvr st) = Status.done st := by
  simp [Status.done, Status.setOvr]
@[simp] theorem Status.err_setOvr (st : Word) : Status.err (Status.setOvr st) = Status.err st := by
  simp [Status.err, Status.setOvr]
@[simp] theorem Status.ovr_setOvr (st : Word) : Status.ovr (Status.setOvr st) = true := by
  simp [Status.ovr, Status.setOvr]
@[simp] theorem Status.errCode_setOvr (st : Word) : Status.errCode (Status.setOvr st) = Status.errCode st := by
  apply BitVec.eq_of_getLsbD_eq
  intro j hj
  interval_cases j <;> simp [Status.errCode, Status.setOvr]

/-! ### A host write (R24) -/

@[simp] theorem Status.busy_hostWrite (st v : Word) : Status.busy (Status.hostWrite st v) = Status.busy st := by
  simp only [Status.busy, Status.hostWrite]
  split <;> split <;> simp
@[simp] theorem Status.done_hostWrite (st v : Word) :
    Status.done (Status.hostWrite st v) = (Status.done st && !v.getLsbD 1) := by
  simp only [Status.done, Status.hostWrite]
  split <;> split <;> simp_all
@[simp] theorem Status.err_hostWrite (st v : Word) :
    Status.err (Status.hostWrite st v) = (Status.err st && !v.getLsbD 1) := by
  simp only [Status.err, Status.hostWrite]
  split <;> split <;> simp_all
@[simp] theorem Status.ovr_hostWrite (st v : Word) :
    Status.ovr (Status.hostWrite st v) = (Status.ovr st && !v.getLsbD 3) := by
  simp only [Status.ovr, Status.hostWrite]
  split <;> split <;> simp_all
@[simp] theorem Status.errCode_hostWrite (st v : Word) :
    Status.errCode (Status.hostWrite st v) = if v.getLsbD 1 then 0 else Status.errCode st := by
  apply BitVec.eq_of_getLsbD_eq
  intro j hj
  simp only [Status.errCode, Status.hostWrite]
  split <;> split <;> interval_cases j <;> simp

end Sys2Proof.Machine
end

