-- ==== Sys2Proof/Laws/Ops.lean ====
section
/-! SUPPORT. What each shared operation and each command can do: one lemma per operation, cited instead of unfolding
it. -/

namespace Sys2Proof.Machine

/-! ### The checks -/

theorem requireBdkLen_of_eq {s : State} (k : Result) (h : s.bdkLen = 16) : requireBdkLen s k = k := by
  simp [requireBdkLen, h]

theorem requireBdkLen_of_ne {s : State} (k : Result) (h : s.bdkLen ≠ 16) :
    requireBdkLen s k = .next (raiseCmdError .bdkLen s) := by
  rw [requireBdkLen, if_pos h]

theorem requireKsnLen_of_eq {s : State} (k : Result) (h : s.ksnLen = 10) : requireKsnLen s k = k := by
  simp [requireKsnLen, h]

theorem requireKsnLen_of_ne {s : State} (k : Result) (h : s.ksnLen ≠ 10) :
    requireKsnLen s k = .next (raiseCmdError .ksnLen s) := by
  rw [requireKsnLen, if_pos h]

theorem requirePtLen_of_le {s : State} (k : Result) (h : s.ptLen.toNat ≤ s.dataBytes.toNat) :
    requirePtLen s k = k := by
  rw [requirePtLen, if_neg (by omega)]

theorem requirePtLen_of_gt {s : State} (k : Result) (h : s.dataBytes.toNat < s.ptLen.toNat) :
    requirePtLen s k = .next (raiseCmdError .ptLen s) := by
  rw [requirePtLen, if_pos (by omega)]

/-! ### ECB in place -/

/-- A completed in-place encryption read the whole plaintext. -/
theorem ecbInPlace_next {tk : TripleKey} {s t : State} (h : ecbInPlace tk s = .next t) :
    ∃ pt, s.data.readRange 0 s.ptLen.toNat = .ok pt ∧
      t = completeCommand { s with
        data := s.data.writeRange 0 (ecbEncrypt tk pt), ctLen := BitVec.ofNat 32 (ceil8 s.ptLen.toNat) } := by
  unfold ecbInPlace at h
  split at h
  · cases h
  · rename_i pt hpt
    exact ⟨pt, hpt, (Host.Outcome.next.inj h).symm⟩

/-- It stops only on an unwritten plaintext byte. -/
theorem ecbInPlace_fault {tk : TripleKey} {s : State} {f : Fault} (h : ecbInPlace tk s = .fault f) :
    ∃ i, f = .unwrittenData i ∧ i < s.ptLen.toNat ∧ s.data.read i = none := by
  unfold ecbInPlace at h
  split at h
  · rename_i i hi
    obtain ⟨-, h2, h3, -⟩ := Memory.readRange_error hi
    exact ⟨i, (Host.Outcome.fault.inj h).symm, by omega, h3⟩
  · cases h

theorem ecbInPlace_of_written {tk : TripleKey} {s : State} (h : WrittenBelow s.data s.ptLen.toNat) :
    ∃ t, ecbInPlace tk s = .next t := by
  obtain ⟨pt, hpt⟩ := Memory.readRange_isOk (m := s.data) (i := 0) (n := s.ptLen.toNat)
    (fun j _ hj => h j (by omega))
  exact ⟨_, by rw [ecbInPlace, hpt]⟩

theorem ecbInPlace_ne_refused (tk : TripleKey) (s : State) (r : Refusal) : ecbInPlace tk s ≠ .refused r := by
  unfold ecbInPlace
  split <;> simp

/-! ### What each command can answer -/

theorem execNop_next {s t : State} (h : execNop s = .next t) : t = completeCommand s :=
  (Host.Outcome.next.inj h).symm

theorem execExtksi_next {s t : State} (h : execExtksi s = .next t) :
    (s.ksnLen ≠ 10 ∧ t = raiseCmdError .ksnLen s) ∨
    (s.ksnLen = 10 ∧ t = completeCommand { s with ksi := extractKSI s.ksn }) := by
  unfold execExtksi requireKsnLen at h
  split at h <;> cases h <;> simp_all

theorem execExtctr_next {s t : State} (h : execExtctr s = .next t) :
    (s.ksnLen ≠ 10 ∧ t = raiseCmdError .ksnLen s) ∨
    (s.ksnLen = 10 ∧ t = completeCommand { s with ctr := BitVec.ofNat 32 (extractCounter s.ksn) }) := by
  unfold execExtctr requireKsnLen at h
  split at h <;> cases h <;> simp_all

theorem execBldreg_next {p : Nat} {s t : State} (h : execBldreg p s = .next t) :
    (20 < p ∧ t = raiseCmdError .badPos s) ∨
    (p ≤ 20 ∧ t = completeCommand { s with reg := buildRegister s.ksi p }) := by
  unfold execBldreg at h
  split at h <;> cases h <;> simp_all

theorem execIpek_next {s t : State} (h : execIpek s = .next t) :
    (s.bdkLen ≠ 16 ∧ t = raiseCmdError .bdkLen s) ∨
    (s.bdkLen = 16 ∧ s.ksnLen ≠ 10 ∧ t = raiseCmdError .ksnLen s) ∨
    (s.bdkLen = 16 ∧ s.ksnLen = 10 ∧
      t = completeCommand { s with k := deriveIpek s.bdk s.ksn, bdk := 0, bdkLen := 0 }) := by
  unfold execIpek requireBdkLen requireKsnLen at h
  split at h
  · cases h; simp_all
  · split at h <;> cases h <;> simp_all

theorem execNrkgp_next {s t : State} (h : execNrkgp s = .next t) :
    t = completeCommand { s with k := nrkgp s.k (lastEight s.reg) } := (Host.Outcome.next.inj h).symm

theorem execWalk_next {s t : State} (h : execWalk s = .next t) :
    (s.ksnLen ≠ 10 ∧ t = raiseCmdError .ksnLen s) ∨
    (s.ksnLen = 10 ∧ t = completeCommand { s with k := sessionWalk s.k s.ksn }) := by
  unfold execWalk requireKsnLen at h
  split at h <;> cases h <;> simp_all

theorem execVariant_next {s t : State} (h : execVariant s = .next t) :
    t = completeCommand { s with k := applyDataVariant s.k } := (Host.Outcome.next.inj h).symm

theorem execNorm_next {s t : State} (h : execNorm s = .next t) :
    t = completeCommand { s with tk := normalizeKey s.k } := (Host.Outcome.next.inj h).symm

theorem execEcb_next {s t : State} (h : execEcb s = .next t) :
    (s.dataBytes.toNat < s.ptLen.toNat ∧ t = raiseCmdError .ptLen s) ∨
    (s.ptLen.toNat ≤ s.dataBytes.toNat ∧ ecbInPlace s.tk s = .next t) := by
  unfold execEcb requirePtLen at h
  split at h
  · cases h; exact .inl ⟨by omega, rfl⟩
  · exact .inr ⟨by omega, h⟩

theorem execEncrypt_next {s t : State} (h : execEncrypt s = .next t) :
    (s.bdkLen ≠ 16 ∧ t = raiseCmdError .bdkLen s) ∨
    (s.bdkLen = 16 ∧ s.ksnLen ≠ 10 ∧ t = raiseCmdError .ksnLen s) ∨
    (s.bdkLen = 16 ∧ s.ksnLen = 10 ∧ s.dataBytes.toNat < s.ptLen.toNat ∧ t = raiseCmdError .ptLen s) ∨
    (s.bdkLen = 16 ∧ s.ksnLen = 10 ∧ s.ptLen.toNat ≤ s.dataBytes.toNat ∧
      ecbInPlace (transactionKey s.bdk s.ksn) (clearKeys s) = .next t) := by
  unfold execEncrypt requireBdkLen requireKsnLen requirePtLen at h
  split at h
  · cases h; simp_all
  · split at h
    · cases h; simp_all
    · split at h
      · cases h; simp_all
      · simp_all

theorem execZeroize_next {s t : State} (h : execZeroize s = .next t) :
    t = completeCommand
      { s with
        bdk := 0, ksn := 0, k := 0, tk := 0, ksi := 0, reg := 0
        data := Memory.zerosFrom 0 s.dataBytes.toNat
        bdkLen := 0, ksnLen := 0, ptLen := 0, ctLen := 0, ctr := 0 } := (Host.Outcome.next.inj h).symm

/-! ### The engine's turn and the step -/

/-- The engine's turn: nothing, ILLEGAL, or the decoded command. -/
theorem engineTurn_cases (s : State) :
    (s.pending = none ∧ engineTurn s = .next s) ∨
    (∃ w e, s.pending = some w ∧ decodeWord w = .error e ∧ engineTurn s = .next (raiseCmdError .illegal s)) ∨
    (∃ w i, s.pending = some w ∧ decodeWord w = .ok i ∧ engineTurn s = exec i s) := by
  unfold engineTurn completePending
  cases hp : s.pending with
  | none => simp
  | some w => cases hd : decodeWord w with
    | error e => exact .inr (.inl ⟨w, e, rfl, hd, by simp [hd]⟩)
    | ok i => exact .inr (.inr ⟨w, i, rfl, hd, by simp [hd]⟩)

/-- A step is the engine's turn with the schedule exhausted, or the first event. -/
theorem step_cases (s : State) :
    (s.schedule = [] ∧ step s = engineTurn s) ∨
    (∃ e rest, s.schedule = e :: rest ∧ step s = handleEvent e { s with schedule := rest }) := by
  unfold step takeTurn
  cases hs : s.schedule with
  | nil => simp
  | cons e rest => exact .inr ⟨e, rest, rfl, rfl⟩

/-! ### The window -/

/-- A completed read changes only the model's own fields (R56). -/
theorem memRead_next {o n : Nat} {s t : State} (h : memRead o n s = .next t) :
    firstUnwritten (lanesOf s o n) = none ∧
      t = { s with
        readData := readValue s o n
        draws := if anyFree (lanesOf s o n) then s.draws + 1 else s.draws } := by
  unfold memRead at h
  split at h
  · cases h
  · exact ⟨‹_›, (Host.Outcome.next.inj h).symm⟩

/-- A byte write touches only BDK, KSN, K and DATA. -/
theorem writeByte_eq (s : State) (l : Loc) (b : Byte) :
    writeByte s l b = { s with
      bdk := (writeByte s l b).bdk, ksn := (writeByte s l b).ksn, k := (writeByte s l b).k
      data := (writeByte s l b).data } := by
  cases l <;> rfl

theorem foldl_writeByte_eq (f : Nat → Loc) (g : Nat → Byte) (ls : List Nat) (s : State) :
    ls.foldl (fun t j => writeByte t (f j) (g j)) s = { s with
      bdk := (ls.foldl (fun t j => writeByte t (f j) (g j)) s).bdk
      ksn := (ls.foldl (fun t j => writeByte t (f j) (g j)) s).ksn
      k := (ls.foldl (fun t j => writeByte t (f j) (g j)) s).k
      data := (ls.foldl (fun t j => writeByte t (f j) (g j)) s).data } := by
  induction ls generalizing s with
  | nil => rfl
  | cons j ls ih =>
    simp only [List.foldl_cons]
    have h1 := ih (writeByte s (f j) (g j))
    have h2 := writeByte_eq s (f j) (g j)
    rw [h1]
    rw [h2]

/-- An array write touches only BDK, KSN, K and DATA (R57). -/
theorem writeBytes_eq (o n : Nat) (v : Word) (s : State) :
    writeBytes o n v s = { s with
      bdk := (writeBytes o n v s).bdk, ksn := (writeBytes o n v s).ksn, k := (writeBytes o n v s).k
      data := (writeBytes o n v s).data } :=
  foldl_writeByte_eq _ _ _ s

/-- Everything a write can do (R57). -/
theorem memWrite_cases (o n : Nat) (v : Word) (s : State) :
    memWrite o n v s = { s with status := Status.hostWrite s.status v } ∨
    memWrite o n v s = { s with ctrl := v &&& 0x00000001 } ∨
    memWrite o n v s = s ∨
    (s.pending.isSome = true ∧ memWrite o n v s = dropWrite s) ∨
    (s.pending = none ∧ memWrite o n v s = issueCommand v s) ∨
    memWrite o n v s = { s with bdkLen := v } ∨
    memWrite o n v s = { s with ksnLen := v } ∨
    memWrite o n v s = { s with ptLen := v } ∨
    memWrite o n v s = writeBytes o n v s := by
  unfold memWrite
  split
  · simp
  split
  · simp
  split
  · simp
  split
  · rename_i h
    simp [h.1]
  split
  · rename_i h _
    subst_vars
    refine .inr (.inr (.inr (.inr (.inl ⟨?_, rfl⟩))))
    cases hp : s.pending with
    | none => rfl
    | some w => simp [hp, droppedWhilePending] at h
  split
  · simp
  split
  · simp
  split
  · simp
  · simp

/-- A host access is a bus error, a read or a write. -/
theorem hostAccess_cases (a : Access) (s : State) :
    (busError s.dataBytes.toNat a.offset a.width = true ∧
      hostAccess a s = .fault (.busError a.offset a.width)) ∨
    (busError s.dataBytes.toNat a.offset a.width = false ∧ a.op = .read ∧
      hostAccess a s = memRead a.offset a.width s) ∨
    (∃ v, busError s.dataBytes.toNat a.offset a.width = false ∧ a.op = .write v ∧
      hostAccess a s = .next (memWrite a.offset a.width v s)) := by
  unfold hostAccess
  cases hb : busError s.dataBytes.toNat a.offset a.width with
  | true => simp
  | false => cases ho : a.op with
    | read => simp
    | write v => simp

end Sys2Proof.Machine
end

