-- ==== Sys2Proof/Laws/Derivation.lean ====
section
/-! SUPPORT. The derivation's functions as arithmetic and bit masks, what an in-place encryption leaves in DATA, and what a
command can leave outside its own registers. -/

namespace Sys2Proof.Machine

/-! ### KSN -/

theorem extractKSI_eq_and (ksn : Ksn) : extractKSI ksn = ksn &&& 0xFFFFFFFFFFFFFFE00000 := by
  apply BitVec.eq_of_getLsbD_eq
  intro j hj
  unfold extractKSI
  rw [getLsbD_setByte _ _ _ (by omega), getLsbD_setByte _ _ _ (by omega), getLsbD_setByte _ _ _ (by omega)]
  interval_cases j <;> simp [byteAt]

theorem extractCounter_eq_mod (ksn : Ksn) : extractCounter ksn = ksn.toNat % 2^21 := by
  unfold extractCounter slice
  have : (0x1FFFFF : BitVec 24).toNat = 2^21 - 1 := by decide
  rw [BitVec.toNat_and, this, Nat.and_two_pow_sub_one_eq_mod]
  simp [BitVec.extractLsb'_toNat]

theorem buildRegister_eq_or (ksi : Ksn) (p : Nat) (hp : p < 24) : buildRegister ksi p = ksi ||| (1#80 <<< p) := by
  apply BitVec.eq_of_getLsbD_eq
  intro j hj
  unfold buildRegister slice
  rw [BitVec.getLsbD_append]
  simp only [BitVec.getLsbD_or, BitVec.getLsbD_extractLsb', BitVec.getLsbD_shiftLeft]
  by_cases h : j < 24
  · simp [h, hj]
  · simp [h, hj, show j - 24 < 56 by omega, show 24 + (j - 24) = j by omega]; omega

/-! ### STATUS and blocks -/

@[simp] theorem Status.complete_complete (st : Word) : Status.complete (Status.complete st) = Status.complete st := by
  unfold Status.complete Status.completionMask
  apply BitVec.eq_of_getLsbD_eq
  intro j hj
  interval_cases j <;> simp

theorem length_ecbEncrypt (tk : TripleKey) (pt : List Byte) : (ecbEncrypt tk pt).length = ceil8 pt.length := by
  unfold ecbEncrypt
  rw [length_flatMap_eight _ (fun i => by simp)]
  have := ceil8_mod pt.length; omega

theorem ofNat_be_eight (l : List Byte) (h : l.length = 8) :
    BitVec.ofNat 64 (be l) = l[0] ++ l[1] ++ l[2] ++ l[3] ++ l[4] ++ l[5] ++ l[6] ++ l[7] := by
  obtain ⟨a0,a1,a2,a3,a4,a5,a6,a7,rfl⟩ : ∃ a0 a1 a2 a3 a4 a5 a6 a7, l = [a0,a1,a2,a3,a4,a5,a6,a7] := by
    match l, h with
    | [a0,a1,a2,a3,a4,a5,a6,a7], _ => exact ⟨_,_,_,_,_,_,_,_,rfl⟩
  apply BitVec.eq_of_toNat_eq
  have happ : ∀ {w : Nat} (x : BitVec w) (b : Byte), (x ++ b).toNat = 256 * x.toNat + b.toNat := by
    intro w x b
    rw [BitVec.toNat_append, ← Nat.shiftLeft_add_eq_or_of_lt b.isLt, Nat.shiftLeft_eq]
    omega
  have h0 := a0.isLt
  have h1 := a1.isLt
  have h2 := a2.isLt
  have h3 := a3.isLt
  have h4 := a4.isLt
  have h5 := a5.isLt
  have h6 := a6.isLt
  have h7 := a7.isLt
  simp only [be, List.foldl, BitVec.toNat_ofNat, happ, List.getElem_cons_zero, List.getElem_cons_succ, Nat.mul_zero, Nat.zero_add]
  omega

/-- What `ecbInPlace` leaves in DATA. -/
theorem encryptedData_writeRange (s : State) (tk : TripleKey) (pt : List Byte) (h : s.data.readRange 0 s.ptLen.toNat = .ok pt) :
    EncryptedData tk s (s.data.writeRange 0 (ecbEncrypt tk pt)) := by
  obtain ⟨hl, hr⟩ := Memory.readRange_ok h
  intro i
  rw [Memory.read_writeRange, length_ecbEncrypt, hl]
  change (if 0 ≤ i ∧ i < 0 + ceil8 s.ptLen.toNat then _ else _) = if i < ceil8 s.ptLen.toNat then _ else _
  by_cases hi : i < ceil8 s.ptLen.toNat
  · rw [if_pos (by omega), if_pos hi]
    unfold ecbEncrypt
    have hm := ceil8_mod s.ptLen.toNat
    rw [getElem?_flatMap_eight _ (fun i => by simp) _ _ (by rw [hl]; omega), getElem?_blockBytes _ (by omega)]
    simp only [Nat.sub_zero]
    congr 3
    unfold blockOf
    have hp := length_padPlaintext pt
    rw [hl] at hp
    rw [ofNat_be_eight _ (by simp [hp]; omega)]
    have key : ∀ j (hj : j < ceil8 s.ptLen.toNat), (padPlaintext pt)[j]'(by omega) = plainByte s j := by
      intro j hj
      unfold plainByte
      split
      · rename_i hj'
        have := hr j hj'
        simp only [Nat.zero_add] at this
        rw [this]
        simp [padPlaintext, hl, hj']
      · rename_i hj'
        simp [padPlaintext, List.getElem_append, hl, hj']
    simp only [List.getElem_take, List.getElem_drop]
    unfold plainBlock
    rw [key, key, key, key, key, key, key, key]
    all_goals first | omega | rfl
  · rw [if_neg (by omega), if_neg hi]


/-! ### Commands -/

/-- A command ends with an error, or completes with results that leave everything listed here. -/
theorem exec_next (i : Instr) (s t : State) (h : exec i s = .next t) :
    (∃ e, t = raiseCmdError e s) ∨ ∃ u, t = completeCommand u ∧
      u.status = s.status ∧ u.ctrl = s.ctrl ∧ u.schedule = s.schedule ∧ u.dataBytes = s.dataBytes ∧
      u.draws = s.draws ∧ u.readData = s.readData := by
  cases i with
  | nop => exact .inr ⟨s, execNop_next h, by simp⟩
  | extksi => rcases execExtksi_next h with ⟨_, h⟩ | ⟨_, h⟩; exacts [.inl ⟨_, h⟩, .inr ⟨_, h, by simp⟩]
  | extctr => rcases execExtctr_next h with ⟨_, h⟩ | ⟨_, h⟩; exacts [.inl ⟨_, h⟩, .inr ⟨_, h, by simp⟩]
  | bldreg p => rcases execBldreg_next h with ⟨_, h⟩ | ⟨_, h⟩; exacts [.inl ⟨_, h⟩, .inr ⟨_, h, by simp⟩]
  | ipek => rcases execIpek_next h with ⟨_, h⟩ | ⟨_, _, h⟩ | ⟨_, _, h⟩; exacts [.inl ⟨_, h⟩, .inl ⟨_, h⟩, .inr ⟨_, h, by simp⟩]
  | nrkgp => exact .inr ⟨_, execNrkgp_next h, by simp⟩
  | walk => rcases execWalk_next h with ⟨_, h⟩ | ⟨_, h⟩; exacts [.inl ⟨_, h⟩, .inr ⟨_, h, by simp⟩]
  | variant => exact .inr ⟨_, execVariant_next h, by simp⟩
  | norm => exact .inr ⟨_, execNorm_next h, by simp⟩
  | ecb =>
    rcases execEcb_next h with ⟨_, h⟩ | ⟨_, h⟩
    · exact .inl ⟨_, h⟩
    · obtain ⟨pt, _, h⟩ := ecbInPlace_next h
      exact .inr ⟨_, h, by simp⟩
  | encrypt =>
    rcases execEncrypt_next h with ⟨_, h⟩ | ⟨_, _, h⟩ | ⟨_, _, _, h⟩ | ⟨_, _, _, h⟩
    · exact .inl ⟨_, h⟩
    · exact .inl ⟨_, h⟩
    · exact .inl ⟨_, h⟩
    · obtain ⟨pt, _, h⟩ := ecbInPlace_next h
      exact .inr ⟨_, h, by simp⟩
  | zeroize => exact .inr ⟨_, execZeroize_next h, by simp⟩

end Sys2Proof.Machine
end

