-- ==== Sys2Proof/Laws/PerInstr.lean ====
section
/-! SUPPORT. Facts about every instruction as syntax, one lemma per constructor. -/

namespace Sys2Proof.Laws.TableRow

/-- A command's word is a word of its row of the opcode map (R83). -/
def Statement (i : Instr) : Prop := i.WellFormed → encode i &&& (opcodeRow i).mask = (opcodeRow i).pattern

theorem nop : Statement .nop := fun _ => rfl
theorem extksi : Statement .extksi := fun _ => rfl
theorem extctr : Statement .extctr := fun _ => rfl
theorem bldreg (pos : Nat) : Statement (.bldreg pos) := by
  intro h
  have h : pos ≤ 31 := by simpa [Instr.WellFormed, Instr.wf] using h
  interval_cases pos <;> rfl
theorem ipek : Statement .ipek := fun _ => rfl
theorem nrkgp : Statement .nrkgp := fun _ => rfl
theorem walk : Statement .walk := fun _ => rfl
theorem variant : Statement .variant := fun _ => rfl
theorem norm : Statement .norm := fun _ => rfl
theorem ecb : Statement .ecb := fun _ => rfl
theorem encrypt : Statement .encrypt := fun _ => rfl
theorem zeroize : Statement .zeroize := fun _ => rfl

end Sys2Proof.Laws.TableRow
end

