-- ==== Sys2Proof/Laws/Window.lean ====
section
/-! SUPPORT. The register map and accesses: what lies where, and what a write to one location does. -/

namespace Sys2Proof.Machine

/-! ### The map -/

/-- The rows of R52, as a relation: `MapRow size o l` says that `l` lies at offset `o` of a build of `size` DATA bytes. -/
inductive MapRow (size o : Nat) : Loc → Prop where
  | scalar (hi : o < 0x0024) : MapRow size o (.scalar (scalarAt (o / 4)) (o % 4))
  | bdk (lo : 0x0040 ≤ o) (hi : o < 0x0050) : MapRow size o (.bdk (o - 0x0040))
  | ksn (lo : 0x0050 ≤ o) (hi : o < 0x005A) : MapRow size o (.ksn (o - 0x0050))
  | k (lo : 0x0060 ≤ o) (hi : o < 0x0070) : MapRow size o (.k (o - 0x0060))
  | ksi (lo : 0x0070 ≤ o) (hi : o < 0x007A) : MapRow size o (.ksi (o - 0x0070))
  | reg (lo : 0x0080 ≤ o) (hi : o < 0x008A) : MapRow size o (.reg (o - 0x0080))
  | data (lo : 0x1000 ≤ o) (hi : o < 0x1000 + size) : MapRow size o (.data (o - 0x1000))
  | pad (h : PadOffset o) : MapRow size o .pad
  | unassigned (h : UnassignedOffset size o) : MapRow size o .unassigned

/-- Every offset lies in the row that `locate` names. -/
theorem mapRow_locate (size o : Nat) : MapRow size o (locate size o) := by
  have row : ∀ {c : Prop} [Decidable c] {a b : Loc}, (c → MapRow size o a) → (¬ c → MapRow size o b) →
      MapRow size o (if c then a else b) := iteInduction
  have gap : ∀ a b, (a ≤ o ∧ o ≤ b → UnassignedOffset size o) → a ≤ o → o < b + 1 → MapRow size o .unassigned :=
    fun a b h h1 h2 => .unassigned (h ⟨h1, by omega⟩)
  refine row (fun h => .scalar h) fun n0 => ?_
  refine row (fun h => gap 0x0024 0x003F .inl (by omega) h) fun n1 => ?_
  refine row (fun h => .bdk (by omega) h) fun n2 => ?_
  refine row (fun h => .ksn (by omega) h) fun n3 => ?_
  refine row (fun h => .pad (.inl (by omega))) fun n4 => ?_
  refine row (fun h => gap 0x005C 0x005F (.inr ∘ .inl) (by omega) h) fun n5 => ?_
  refine row (fun h => .k (by omega) h) fun n6 => ?_
  refine row (fun h => .ksi (by omega) h) fun n7 => ?_
  refine row (fun h => .pad (.inr (.inl (by omega)))) fun n8 => ?_
  refine row (fun h => gap 0x007C 0x007F (.inr ∘ .inr ∘ .inl) (by omega) h) fun n9 => ?_
  refine row (fun h => .reg (by omega) h) fun n10 => ?_
  refine row (fun h => .pad (.inr (.inr (by omega)))) fun n11 => ?_
  refine row (fun h => gap 0x008C 0x0FFF (.inr ∘ .inr ∘ .inr ∘ .inl) (by omega) h) fun n12 => ?_
  refine row (fun h => .data (by omega) h) fun n13 => ?_
  exact .unassigned (by unfold UnassignedOffset; omega)

/-- The rows do not overlap. -/
theorem MapRow.unique {size o : Nat} {l l' : Loc} (h : MapRow size o l) (h' : MapRow size o l') : l = l' := by
  cases h <;> cases h' <;> first
    | rfl
    | exfalso
      try simp only [PadOffset, UnassignedOffset] at *
      omega

theorem locate_eq_iff_mapRow {size o : Nat} {l : Loc} : locate size o = l ↔ MapRow size o l :=
  ⟨fun h => h ▸ mapRow_locate size o, (mapRow_locate size o).unique⟩

/-- The unassigned offsets are those of R52. -/
theorem locate_eq_unassigned_iff (size o : Nat) : locate size o = .unassigned ↔ UnassignedOffset size o :=
  locate_eq_iff_mapRow.trans ⟨fun | .unassigned h => h, .unassigned⟩

/-- The pad offsets are those of R52. -/
theorem locate_eq_pad_iff (size o : Nat) : locate size o = .pad ↔ PadOffset o :=
  locate_eq_iff_mapRow.trans ⟨fun | .pad h => h, .pad⟩

/-- The operand bytes are those of R52 and R57. -/
theorem isOperand_locate_iff (size o : Nat) : (locate size o).isOperand = true ↔ OperandOffset size o := by
  have r := mapRow_locate size o
  generalize locate size o = l at r
  cases r <;> simp only [Loc.isOperand, Bool.false_eq_true, false_iff, true_iff, OperandOffset] <;>
    (try simp only [PadOffset, UnassignedOffset] at *) <;> omega

theorem locate_scalar {size o : Nat} (h : o < 0x0024) : locate size o = .scalar (scalarAt (o / 4)) (o % 4) :=
  locate_eq_iff_mapRow.2 (.scalar h)

theorem locate_bdk {size i : Nat} (h : i < 16) : locate size (0x0040 + i) = .bdk i := by
  simpa using locate_eq_iff_mapRow.2 (MapRow.bdk (size := size) (o := 0x0040 + i) (by omega) (by omega))

theorem locate_ksn {size i : Nat} (h : i < 10) : locate size (0x0050 + i) = .ksn i := by
  simpa using locate_eq_iff_mapRow.2 (MapRow.ksn (size := size) (o := 0x0050 + i) (by omega) (by omega))

theorem locate_k {size i : Nat} (h : i < 16) : locate size (0x0060 + i) = .k i := by
  simpa using locate_eq_iff_mapRow.2 (MapRow.k (size := size) (o := 0x0060 + i) (by omega) (by omega))

theorem locate_ksi {size i : Nat} (h : i < 10) : locate size (0x0070 + i) = .ksi i := by
  simpa using locate_eq_iff_mapRow.2 (MapRow.ksi (size := size) (o := 0x0070 + i) (by omega) (by omega))

theorem locate_reg {size i : Nat} (h : i < 10) : locate size (0x0080 + i) = .reg i := by
  simpa using locate_eq_iff_mapRow.2 (MapRow.reg (size := size) (o := 0x0080 + i) (by omega) (by omega))

theorem locate_data {size i : Nat} (h : i < size) : locate size (0x1000 + i) = .data i := by
  simpa using locate_eq_iff_mapRow.2 (MapRow.data (size := size) (o := 0x1000 + i) (by omega) (by omega))

/-- The offset a location answers to, where it is one byte of an array. -/
theorem locate_inj {size o : Nat} :
    (∀ i, locate size o = .bdk i → o = 0x0040 + i ∧ i < 16) ∧ (∀ i, locate size o = .ksn i → o = 0x0050 + i ∧ i < 10) ∧
    (∀ i, locate size o = .k i → o = 0x0060 + i ∧ i < 16) ∧ (∀ i, locate size o = .ksi i → o = 0x0070 + i ∧ i < 10) ∧
    (∀ i, locate size o = .reg i → o = 0x0080 + i ∧ i < 10) ∧
    (∀ i, locate size o = .data i → o = 0x1000 + i ∧ i < size) := by
  have r := mapRow_locate size o
  generalize locate size o = l at r
  cases r <;> simp only [reduceCtorEq, false_imp_iff, implies_true, true_and, and_true, Loc.bdk.injEq, Loc.ksn.injEq,
    Loc.k.injEq, Loc.ksi.injEq, Loc.reg.injEq, Loc.data.injEq]
  all_goals intro i hi; omega

/-- Above the scalar registers no location is scalar. -/
theorem locate_ne_scalar {size o : Nat} (h : 0x0040 ≤ o) (r : Scalar) (l : Nat) : locate size o ≠ .scalar r l := by
  rw [ne_eq, locate_eq_iff_mapRow]
  intro h'
  cases h'
  omega

/-! ### One byte written -/

@[simp] theorem writeByte_dataBytes (s : State) (l : Loc) (b : Byte) :
    (writeByte s l b).dataBytes = s.dataBytes := by cases l <;> rfl

theorem writeByte_of_not_operand {s : State} {l : Loc} (b : Byte) (h : l.isOperand = false) : writeByte s l b = s := by
  cases l <;> simp_all [Loc.isOperand, writeByte]

/-- A write of no operand byte changes nothing. -/
theorem writeBytes_of_no_operand {o n : Nat} (v : Word) {s : State}
    (h : ∀ j, j < n → (locate s.dataBytes.toNat (o + j)).isOperand = false) : writeBytes o n v s = s := by
  unfold writeBytes
  have : ∀ (ls : List Nat) (t : State), (∀ j ∈ ls, j < n) →
      ls.foldl (fun t j => writeByte t (locate s.dataBytes.toNat (o + j)) (beByte n v j)) t = t := by
    intro ls
    induction ls with
    | nil => intro t _; rfl
    | cons j ls ih =>
      intro t hl
      rw [List.foldl_cons, writeByte_of_not_operand _ (h j (hl j List.mem_cons_self))]
      exact ih t fun k hk => hl k (List.mem_cons_of_mem _ hk)
  exact this _ s fun j hj => List.mem_range.1 hj

/-- One more lane of a write. -/
theorem writeBytes_lanes_succ (size o n : Nat) (v : Word) (s : State) (m : Nat) :
    (List.range (m + 1)).foldl (fun t j => writeByte t (locate size (o + j)) (beByte n v j)) s =
      writeByte ((List.range m).foldl (fun t j => writeByte t (locate size (o + j)) (beByte n v j)) s)
        (locate size (o + m)) (beByte n v m) := by
  rw [List.range_succ, List.foldl_append]
  rfl

/-- Writing keeps DATA's canonical form and bound. -/
theorem writeByte_keeps_data {s : State} {o : Nat} {b : Byte} (hw : s.data.wf = true)
    (hb : s.data.within s.dataBytes.toNat = true) :
    (writeByte s (locate s.dataBytes.toNat o) b).data.wf = true ∧
      (writeByte s (locate s.dataBytes.toNat o) b).data.within s.dataBytes.toNat = true := by
  cases hl : locate s.dataBytes.toNat o with
  | data i =>
    have hi := (locate_inj.2.2.2.2.2 i hl).2
    exact ⟨Memory.wf_write i b hw, Memory.within_write b hb hi⟩
  | _ => exact ⟨hw, hb⟩

theorem writeBytes_keeps_data {s : State} (o n : Nat) (v : Word) (hw : s.data.wf = true)
    (hb : s.data.within s.dataBytes.toNat = true) :
    (writeBytes o n v s).data.wf = true ∧ (writeBytes o n v s).data.within s.dataBytes.toNat = true := by
  unfold writeBytes
  have : ∀ (ls : List Nat) (t : State), t.dataBytes = s.dataBytes → t.data.wf = true →
      t.data.within s.dataBytes.toNat = true →
      (ls.foldl (fun t j => writeByte t (locate s.dataBytes.toNat (o + j)) (beByte n v j)) t).data.wf = true ∧
      (ls.foldl (fun t j => writeByte t (locate s.dataBytes.toNat (o + j)) (beByte n v j)) t).data.within
        s.dataBytes.toNat = true := by
    intro ls
    induction ls with
    | nil => exact fun t _ h1 h2 => ⟨h1, h2⟩
    | cons j ls ih =>
      intro t hd h1 h2
      rw [← hd] at h2
      have := writeByte_keeps_data (o := o + j) (b := beByte n v j) h1 h2
      rw [hd] at this
      exact ih _ (by simp [hd]) this.1 this.2
  exact this _ s rfl hw hb

/-! ### Reads -/

theorem length_covered (size o n : Nat) : (covered size o n).length = n := by simp [covered]

/-- With nothing pending no lane is unspecified (R56). -/
theorem laneAt_ne_free {s : State} (h : s.pending = none) (l : Loc) : laneAt s l ≠ .free := by
  cases l <;> simp only [laneAt, idleOnly, h, Option.isSome_none] <;> repeat' split
  all_goals simp_all

theorem anyFree_lanesOf {s : State} (h : s.pending = none) (o n : Nat) : anyFree (lanesOf s o n) = false := by
  simp only [anyFree, lanesOf, List.any_map, List.any_eq_false]
  intro l _
  simpa using laneAt_ne_free h l

theorem firstUnwritten_known (bs : List Byte) : firstUnwritten (bs.map .known) = none := by
  induction bs with
  | nil => rfl
  | cons b bs ih => simpa [firstUnwritten] using ih

theorem laneBytes_known (d : Word) (j : Nat) (bs : List Byte) : laneBytes d j (bs.map .known) = bs := by
  induction bs generalizing j with
  | nil => rfl
  | cons b bs ih => simp [laneBytes, ih]

theorem anyFree_known (bs : List Byte) : anyFree (bs.map .known) = false := by simp [anyFree]

/-- A read all of whose lanes are known returns their big-endian value and changes nothing else. -/
theorem memRead_of_known {o n : Nat} {s : State} {bs : List Byte} (h : lanesOf s o n = bs.map .known) :
    memRead o n s = .next { s with readData := BitVec.ofNat 32 (be bs) } := by
  unfold memRead readValue
  rw [h, firstUnwritten_known, laneBytes_known, anyFree_known]
  rfl

/-- The four lanes of a scalar register are its value (R54). -/
theorem be_byteAt_word (w : Word) :
    BitVec.ofNat 32 (be [byteAt w 0, byteAt w 1, byteAt w 2, byteAt w 3]) = w := by
  apply BitVec.eq_of_toNat_eq
  have := w.isLt
  simp only [be, byteAt, List.foldl, BitVec.toNat_ofNat, BitVec.extractLsb'_toNat, Nat.shiftRight_eq_div_pow]
  omega

/-- While a command is pending an array byte reads unspecified or 0 (R59). -/
theorem laneAt_pending {s : State} (h : s.pending ≠ none) {size o : Nat} (ho : 0x0040 ≤ o) :
    (UnspecifiedOffset size o → laneAt s (locate size o) = .free) ∧
    (¬ UnspecifiedOffset size o → laneAt s (locate size o) = .known 0) := by
  have hp : s.pending.isSome = true := Option.isSome_iff_ne_none.2 h
  have r := mapRow_locate size o
  generalize locate size o = l at r
  cases r <;> simp only [laneAt, idleOnly, hp, if_true, reduceCtorEq, imp_false, implies_true, and_true,
    true_and] <;> (try simp only [UnspecifiedOffset, PadOffset, UnassignedOffset, InRange] at *) <;> omega

/-- A pad byte reads 0, pending or not (R56, R59). -/
theorem laneAt_pad {o : Nat} (s : State) (h : PadOffset o) : laneAt s (locate s.dataBytes.toNat o) = .known 0 := by
  rw [(locate_eq_pad_iff _ _).2 h]
  rfl

/-- Byte `j` of what at most four lanes carry (R54). -/
theorem byte_ofNat_be {bs : List Byte} {n j : Nat} {b : Byte} (hn : bs.length = n) (h4 : n ≤ 4) (hb : bs[j]? = some b) :
    (BitVec.ofNat 32 (be bs) >>> (8 * (n - 1 - j))).setWidth 8 = b := by
  obtain ⟨hj, rfl⟩ := List.getElem?_eq_some_iff.1 hb
  subst hn
  apply BitVec.eq_of_toNat_eq
  simp only [BitVec.toNat_setWidth, BitVec.toNat_ushiftRight, BitVec.toNat_ofNat, Nat.shiftRight_eq_div_pow]
  have lt : ∀ b ∈ bs, b.toNat < 256 := fun b _ => b.isLt
  have : bs.length = 1 ∨ bs.length = 2 ∨ bs.length = 3 ∨ bs.length = 4 := by omega
  rcases this with h | h | h | h
  · obtain ⟨a, rfl⟩ := List.length_eq_one_iff.1 h
    obtain rfl : j = 0 := by simpa using hj
    simp only [List.forall_mem_singleton] at lt
    simp [be]
    omega
  · obtain ⟨a, b, rfl⟩ := List.length_eq_two.1 h
    simp only [List.forall_mem_cons] at lt
    simp only [h] at hj
    interval_cases j <;> simp [be] <;> omega
  · obtain ⟨a, b, c, rfl⟩ := List.length_eq_three.1 h
    simp only [List.forall_mem_cons] at lt
    simp only [h] at hj
    interval_cases j <;> simp [be] <;> omega
  · match bs, h, lt, hj with
    | [a, b, c, d], h, lt, hj =>
      simp only [List.forall_mem_cons] at lt
      simp only [h] at hj
      interval_cases j <;> simp [be] <;> omega

theorem be_lt (bs : List Byte) : be bs < 2 ^ (8 * bs.length) := by
  have : ∀ (bs : List Byte) (a : Nat), bs.foldl (fun acc b => 256 * acc + b.toNat) a < (a + 1) * 2 ^ (8 * bs.length) := by
    intro bs
    induction bs with
    | nil => intro a; simp
    | cons b bs ih =>
      intro a
      have h := ih (256 * a + b.toNat)
      have hb := b.isLt
      rw [List.foldl_cons, List.length_cons, Nat.mul_add, Nat.pow_add]
      calc _ < (256 * a + b.toNat + 1) * 2 ^ (8 * bs.length) := h
        _ ≤ ((a + 1) * 256) * 2 ^ (8 * bs.length) := Nat.mul_le_mul_right _ (by omega)
        _ = _ := by ring
  simpa [be] using this bs 0

theorem length_laneBytes (d : Word) (k : Nat) (ls : List Lane) : (laneBytes d k ls).length = ls.length := by
  induction ls generalizing k with
  | nil => rfl
  | cons l ls ih => cases l <;> simp [laneBytes, ih]

theorem getElem?_laneBytes (d : Word) (k : Nat) (ls : List Lane) (j : Nat) :
    (laneBytes d k ls)[j]? = ls[j]?.map fun
      | .known b => b
      | .free => byteAt d (k + j)
      | .unwritten _ => 0 := by
  induction ls generalizing k j with
  | nil => rfl
  | cons l ls ih =>
    cases j with
    | zero => cases l <;> rfl
    | succ j => cases l <;> simp [laneBytes, ih, Nat.add_assoc, Nat.add_comm 1]

theorem firstUnwritten_eq_none {ls : List Lane} (h : ∀ i, .unwritten i ∉ ls) : firstUnwritten ls = none := by
  induction ls with
  | nil => rfl
  | cons l ls ih =>
    have := ih fun i hi => h i (List.mem_cons_of_mem _ hi)
    cases l with
    | unwritten i => exact absurd List.mem_cons_self (h i)
    | known _ => exact this
    | free => exact this

theorem length_lanesOf (s : State) (o n : Nat) : (lanesOf s o n).length = n := by simp [lanesOf, covered]

theorem getElem?_lanesOf (s : State) (o : Nat) {n j : Nat} (hj : j < n) :
    (lanesOf s o n)[j]? = some (laneAt s (locate s.dataBytes.toNat (o + j))) := by
  simp [lanesOf, covered, hj]

/-! ### Bus errors -/

/-- An access is no bus error exactly when it is legal (R55, R58). -/
theorem busError_eq_false_iff (size o n : Nat) : busError size o n = false ↔ LegalAccess size o n := by
  unfold busError LegalAccess
  simp only [Bool.or_eq_false_iff, Bool.not_eq_false', Bool.or_eq_true, beq_iff_eq, bne_eq_false_iff_eq,
    Bool.and_eq_false_iff, decide_eq_false_iff_not, List.any_eq_false, covered, List.mem_map, List.mem_range]
  constructor
  · rintro ⟨⟨⟨h1, h2⟩, h3⟩, h4⟩
    exact ⟨by omega, h2, by omega, fun j hj hu =>
      h4 _ ⟨j, hj, rfl⟩ ((locate_eq_unassigned_iff _ _).2 hu)⟩
  · rintro ⟨h1, h2, h3, h4⟩
    refine ⟨⟨⟨by omega, h2⟩, by omega⟩, ?_⟩
    rintro _ ⟨j, hj, rfl⟩ hu
    exact h4 j hj ((locate_eq_unassigned_iff _ _).1 hu)

/-- A legal write is performed by its class. -/
theorem hostAccess_write {s : State} {o n : Nat} (v : Word) (h : LegalAccess s.dataBytes.toNat o n) :
    hostAccess ⟨o, n, .write v⟩ s = .next (memWrite o n v s) := by
  simp [hostAccess, (busError_eq_false_iff _ _ _).2 h]

/-- A legal read is performed by its class. -/
theorem hostAccess_read {s : State} {o n : Nat} (h : LegalAccess s.dataBytes.toNat o n) :
    hostAccess ⟨o, n, .read⟩ s = memRead o n s := by
  simp [hostAccess, (busError_eq_false_iff _ _ _).2 h]

/-- The aligned 32-bit accesses of the scalar registers are legal. -/
theorem legalAccess_scalar (size : Nat) {o : Nat} (h : o ≤ 0x0020) (h4 : o % 4 = 0) : LegalAccess size o 4 := by
  unfold LegalAccess UnassignedOffset
  exact ⟨by omega, by omega, by omega, fun j hj => by omega⟩

end Sys2Proof.Machine
end

