-- ==== Sys2Proof/Tests/Slice0.lean ====
section
/-! SUPPORT. Tests against the spec's own vectors (95_test_vectors.md, the id beside each) and, for every statement that has
hypotheses, a concrete state and operands that meet them. -/

namespace Sys2Proof.Tests

open Sys2Proof.Machine

/-! ### Helpers -/

/-- The part `f` of the next state, if there is one. -/
def after {α : Type} (r : Result) (f : State → α) : Option α :=
  match r with
  | .next t => some (f t)
  | .fault _ => none
  | .refused _ => none

/-- What one step makes of the command word `w` from `s`. -/
def run {α : Type} (s : State) (w : Nat) (f : State → α) : Option α := after (step (s.withFetchWord 32 w)) f

/-- The BDK of the spec's vectors, both lengths valid, the given KSN. -/
def keyed (ksn : Ksn) : State :=
  { State.reset with bdk := 0x0123456789ABCDEFFEDCBA9876543210, bdkLen := 16, ksn := ksn, ksnLen := 10 }

/-- DATA holding `bs` from index 0, PT_LEN their number. -/
def withPlain (s : State) (bs : List Byte) : State :=
  { s with data := Memory.writeRange [] 0 bs, ptLen := BitVec.ofNat 32 bs.length }

/-- The smallest legal build, DATA full of written bytes, lengths valid. -/
def tiny : State := { withPlain (keyed 0x12345678901234567890) [1, 2, 3, 4, 5, 6, 7, 8] with dataBytes := 8 }

/-- `s` with `w` pending. -/
def busyWith (w : Word) (s : State) : State := issueCommand w s

/-- A 32-bit write, a read of `n` bytes. -/
def wr (o : Nat) (v : Word) : Access := ⟨o, 4, .write v⟩
def rd (n o : Nat) : Access := ⟨o, n, .read⟩

/-! ### Well-formedness -/

theorem test_wf_refuses_pos_32 : (Instr.bldreg 32).wf = false := by decide
theorem test_wf_refuses_pos_256 : (Instr.bldreg 256).wf = false := by decide
theorem test_wf_accepts_pos_31 : (Instr.bldreg 31).wf = true := by decide
theorem test_assemble_refuses_pos_32 : assemble "BLDREG" (some 32) = none := by decide
theorem test_assemble_bldreg_21 : (assemble "BLDREG" (some 21)).map encode = some 0x00001503 := by decide
theorem test_assemble_zeroize : (assemble "ZEROIZE" none).map encode = some 0x000000F0 := by decide

/-! ### Decoding, every constructor: the words of 30_encoding.md R83, RSVD POS OP written out -/

theorem test_decode_nop : decodeWord 0b0000000000000000000_00000_00000000 = .ok .nop := by decide
theorem test_decode_extksi : decodeWord 0b0000000000000000000_00000_00000001 = .ok .extksi := by decide
theorem test_decode_extctr : decodeWord 0b0000000000000000000_00000_00000010 = .ok .extctr := by decide
theorem test_decode_bldreg_7 : decodeWord 0b0000000000000000000_00111_00000011 = .ok (.bldreg 7) := by decide
theorem test_decode_bldreg_31 : decodeWord 0b0000000000000000000_11111_00000011 = .ok (.bldreg 31) := by decide
theorem test_decode_ipek : decodeWord 0b0000000000000000000_00000_00010000 = .ok .ipek := by decide
theorem test_decode_nrkgp : decodeWord 0b0000000000000000000_00000_00100000 = .ok .nrkgp := by decide
theorem test_decode_walk : decodeWord 0b0000000000000000000_00000_00100001 = .ok .walk := by decide
theorem test_decode_variant : decodeWord 0b0000000000000000000_00000_00110000 = .ok .variant := by decide
theorem test_decode_norm : decodeWord 0b0000000000000000000_00000_00110001 = .ok .norm := by decide
theorem test_decode_ecb : decodeWord 0b0000000000000000000_00000_01000000 = .ok .ecb := by decide
theorem test_decode_encrypt : decodeWord 0b0000000000000000000_00000_01000001 = .ok .encrypt := by decide
theorem test_decode_zeroize : decodeWord 0b0000000000000000000_00000_11110000 = .ok .zeroize := by decide
/-- V-DEC-10, V-DEC-13, V-DEC-14. -/
theorem test_decode_illegal :
    decodeWord 0x80000041 = .error .reservedBits ∧ decodeWord 0x00001510 = .error .posNotZero ∧
    decodeWord 0x00000120 = .error .posNotZero := by decide
theorem test_decode_bytes : decodeBytes [0x00, 0x00, 0x14, 0x03, 0xAA] = .ok (.bldreg 20, [0xAA]) := by decide
theorem test_decode_truncated : decodeBytes [0x00, 0x00, 0x14] = .error .truncated := by decide
theorem test_table_word : decodeTableWord 32 0x00000503 = some (.bldreg 5) := by decide
/-- A table row narrower than the word: the bits above it are 0. -/
theorem test_table_word_short : decodeTableWord 8 0x141 = some .encrypt := by decide
theorem test_table_word_long : decodeTableWord 40 0x41 = none := by decide

/-! ### The cipher: 95 section 1 -/

theorem test_kat_2 : desE 0x0123456789ABCDEF 0x4E6F772069732074 = 0x3FA40E8A984D4815 := by decide +kernel
theorem test_kat_4 : desE 0x0101010101010101 0x8000000000000000 = 0x95F8A5E5DD31D900 := by decide +kernel
theorem test_kat_8 : desD 0x133457799BBCDFF1 0x85E813540F0AB405 = 0x0123456789ABCDEF := by decide +kernel

/-! ### The commands: 95 sections 3.2, 3.4 to 3.11 -/

/-- V-CTL-1. -/
theorem test_nop_completes : run State.reset 0x00 (fun t => t) = some { State.reset with status := 0x00000002 } := by
  decide
theorem test_nop_raises_irq : run { State.reset with ctrl := 1 } 0x00 irq = some true := by decide
/-- V-KSN-1. -/
theorem test_extksi : run (keyed 0x12345678901234567890) 0x01 (·.ksi) = some 0x12345678901234400000 := by decide
/-- V-KSN-3. -/
theorem test_extksi_all_ones : run (keyed 0xFFFFFFFFFFFFFFFFFFFF) 0x01 (·.ksi) = some 0xFFFFFFFFFFFFFFE00000 := by decide
/-- V-KSN-1. -/
theorem test_extctr : run (keyed 0x12345678901234567890) 0x02 (·.ctr) = some 0x00167890 := by decide
/-- V-KSN-3. -/
theorem test_extctr_max : run (keyed 0xFFFF9876543210FFFFFF) 0x02 (·.ctr) = some 0x001FFFFF := by decide
/-- V-KSN-2. -/
theorem test_bldreg_20 :
    run { State.reset with ksi := 0x12345678901234400000 } 0x1403 (·.reg) = some 0x12345678901234500000 := by decide
/-- V-KSN-2. -/
theorem test_bldreg_7 :
    run { State.reset with ksi := 0x12345678901234400000 } 0x0703 (·.reg) = some 0x12345678901234400080 := by decide
/-- V-IPEK-1. -/
theorem test_ipek : run (keyed 0x12345678901234567890) 0x10 (fun t => (t.k, t.bdk, t.bdkLen)) =
    some (0x30267E417AA83B3D69C14859382950B3, 0, 0) := by decide +kernel
/-- V-IPEK-6. -/
theorem test_ipek_zero : run { State.reset with bdkLen := 16, ksnLen := 10 } 0x10 (·.k) =
    some 0x8CA64DE9C1B123A72BDCD4232FF471CA := by decide +kernel
/-- V-NRKGP-3. -/
theorem test_nrkgp :
    run { State.reset with k := 0x0123456789ABCDEFFEDCBA9876543210, reg := 0x12345678901234400001 } 0x20 (·.k) =
      some 0xC94DFB1875CCF826352971ED22A96103 := by decide +kernel
/-- V-NRKGP-4. -/
theorem test_nrkgp_zero : run State.reset 0x20 (·.k) = some 0x0F201698AD5B738E0F201698AD5B738E := by decide +kernel
/-- V-WALK-3: bit 0 before bit 1 (V-WALK-5 is the wrong order). -/
theorem test_walk_order :
    run { keyed 0xFFFF9876543210E00003 with k := 0x6AC292FAA1315B4D5D0AFB4D5305BD9E } 0x21 (·.k) =
      some 0x9B93D76E506530EDB2B51CB9B765E039 := by decide +kernel
/-- V-WALK-6. -/
theorem test_walk_counter_zero :
    run { State.reset with k := 0x08D7B4FB629D0885A4C9BE66D25356D0, ksnLen := 10 } 0x21 (·.k) =
      some 0x08D7B4FB629D0885A4C9BE66D25356D0 := by decide
/-- V-VAR-4. -/
theorem test_variant : run { State.reset with k := 0x92C2C4C710E86AC0FEBDCC8DF63BA9CC } 0x30 (·.k) =
    some 0x92C2C4C710E86A3FFEBDCC8DF63BA933 := by decide
/-- V-VAR-1. -/
theorem test_norm : run { State.reset with k := 0x0123456789ABCDEFFEDCBA9876543210 } 0x31 (·.tk) =
    some 0x0123456789ABCDEFFEDCBA98765432100123456789ABCDEF := by decide
/-- V-ECB-6. -/
theorem test_ecb_nine_bytes :
    run (withPlain { State.reset with tk := 0x0123456789ABCDEFFEDCBA98765432100123456789ABCDEF } [1, 2, 3, 4, 5, 6, 7, 8, 9])
      0x40 (fun t => (t.data.map Prod.snd, t.ctLen)) =
    some ([0xA8, 0x5C, 0xEB, 0x8C, 0xDA, 0xDF, 0xF8, 0x08, 0x64, 0x22, 0x9E, 0x09, 0xD7, 0x60, 0x56, 0xCC], 16) := by
  decide +kernel
/-- V-ECB-9: the byte at PT_LEN is replaced by 0 before encryption. -/
theorem test_ecb_pads_with_zero :
    run { withPlain { State.reset with tk := 0x0123456789ABCDEFFEDCBA98765432100123456789ABCDEF }
        [1, 2, 3, 4, 5, 6, 7, 0xFF] with ptLen := 7 } 0x40 (fun t => (t.data.map Prod.snd, t.ctLen)) =
    some ([0x2E, 0x01, 0xA1, 0x37, 0x86, 0x81, 0x12, 0x4D], 8) := by decide +kernel
/-- V-ENCRYPT-4. -/
theorem test_encrypt :
    run (withPlain (keyed 0xFFFF9876543210E00000) [1, 2, 3, 4, 5, 6, 7]) 0x41 (fun t => (t.data.map Prod.snd, t.ctLen)) =
    some ([0x61, 0x4F, 0x39, 0x09, 0x84, 0xD2, 0x60, 0x49], 8) := by decide +kernel
/-- V-ENCRYPT-19. -/
theorem test_encrypt_empty : run { keyed 0 with k := 5, tk := 6 } 0x41
    (fun t => (t.status, t.ctLen, t.bdk, t.bdkLen, t.k, t.tk)) = some (0x00000002, 0, 0, 0, 0, 0) := by decide
/-- V-CTL-2, in a build of 8 DATA bytes. -/
theorem test_zeroize : run { tiny with ctrl := 1, status := 0x00000008, ctr := 5, ksi := 6, reg := 7, k := 8, tk := 9 } 0xF0 (fun t => t) =
    some { State.reset with
      dataBytes := 8, ctrl := 1, status := 0x0000000A
      data := [(0, 0), (1, 0), (2, 0), (3, 0), (4, 0), (5, 0), (6, 0), (7, 0)] } := by decide
/-- V-ERR-1 to V-ERR-3. -/
theorem test_encrypt_error_order :
    run { State.reset with bdkLen := 15, ksnLen := 9, ptLen := 5000 } 0x41 (·.status) = some 0x00000106 ∧
    run { State.reset with bdkLen := 16, ksnLen := 9, ptLen := 5000 } 0x41 (·.status) = some 0x00000206 ∧
    run { State.reset with bdkLen := 16, ksnLen := 10, ptLen := 5000 } 0x41 (·.status) = some 0x00000606 := by decide
/-- V-ERR-4, V-ERR-7 to V-ERR-10. -/
theorem test_other_errors :
    [0x10, 0x40, 0x1503, 0x01, 0x1510].map
      (fun w => run { State.reset with bdkLen := 15, ksnLen := 9, ptLen := 5000 } w (·.status)) =
    [some 0x00000106, some 0x00000606, some 0x00000506, some 0x00000206, some 0x00000406] := by decide
/-- V-ERR-11, V-ERR-12 at the 8-byte build: PT_LEN = DATA_BYTES passes the check, one more does not. -/
theorem test_pt_len_boundary :
    check .ecb tiny = none ∧ check .ecb { tiny with ptLen := 9 } = some .ptLen := by decide
/-- P4: the failed IPEK leaves K, BDK and BDK_LEN. -/
theorem test_failed_ipek_keeps_all :
    run { keyed 0x12345678901234567890 with bdkLen := 15, k := 0x00112233445566778899AABBCCDDEEFF } 0x10 (fun t => t) =
    some { keyed 0x12345678901234567890 with
      bdkLen := 15, k := 0x00112233445566778899AABBCCDDEEFF, status := 0x00000106 } := by decide

/-! ### The window: 95 section 3.3 -/

/-- V-MEM-1 to V-MEM-5, V-MEM-14. -/
theorem test_mem_reads :
    [rd 4 0x0050, rd 4 0x0058, rd 1 0x0059, rd 4 0x0020, rd 2 0x0040, rd 4 0x0000].map
      (fun a => after (hostAccess a (keyed 0x12345678901234567890)) (·.readData)) =
    [some 0x12345678, some 0x78900000, some 0x90, some 0x00001000, some 0, some 0] := by decide
/-- V-MEM-6, V-MEM-7. -/
theorem test_mem_ignored_writes :
    hostAccess ⟨0x0070, 1, .write 0xAB⟩ State.reset = .next State.reset ∧
    hostAccess (wr 0x0018 5) State.reset = .next State.reset := ⟨rfl, rfl⟩
/-- V-MEM-8 to V-MEM-12. -/
theorem test_mem_bus_errors :
    hostAccess (rd 1 0x0004) State.reset = .fault (.busError 0x0004 1) ∧
    hostAccess (rd 4 0x0002) State.reset = .fault (.busError 0x0002 4) ∧
    hostAccess (rd 4 0x005C) State.reset = .fault (.busError 0x005C 4) ∧
    hostAccess (rd 4 0x0024) State.reset = .fault (.busError 0x0024 4) ∧
    hostAccess (rd 4 0x2000) State.reset = .fault (.busError 0x2000 4) := ⟨rfl, rfl, rfl, rfl, rfl⟩
/-- V-MEM-13. -/
theorem test_mem_ctrl : after (hostAccess (wr 0x0008 0xFFFFFFFF) State.reset) (·.ctrl) = some 0x00000001 := by decide
/-- V-STAT-1 to V-STAT-4. -/
theorem test_status_writes :
    [0x00000002, 0x00000008, 0x0000000A, 0xFFFFFFF5].map
      (fun v => after (hostAccess (wr 0x0004 v) { State.reset with status := 0x0000040E }) (·.status)) =
    [some 0x00000008, some 0x00000406, some 0x00000000, some 0x0000040E] := by decide
/-- P5 (a) and (b): a PT_LEN write before and after the engine's turn. -/
theorem test_write_while_pending :
    after (hostAccess (wr 0x0014 8) (busyWith 0x02 State.reset)) (fun t => (t.ptLen, t.status)) =
      some (0, 0x00000009) ∧
    after (hostAccess (wr 0x0014 8) State.reset) (fun t => (t.ptLen, t.status)) = some (8, 0) := by decide
theorem test_byte_write_at_top_of_data :
    after (hostAccess ⟨0x1FFF, 1, .write 0x5A⟩ State.reset) (·.data) = some [(4095, 0x5A)] := by decide
/-- R52, R59: pad bytes read 0 while a command is pending. -/
theorem test_pads_read_zero_while_pending :
    [rd 2 0x005A, rd 2 0x007A, rd 1 0x008B].map
      (fun a => after (hostAccess a (busyWith 0 (keyed 0xFFFFFFFFFFFFFFFFFFFF))) (fun t => (t.readData, t.draws))) =
    [some (0, 0), some (0, 0), some (0, 0)] := by decide
/-- R59: an unwritten DATA byte reads as a draw, not a fault, while a command is pending. -/
theorem test_unwritten_read_while_pending :
    after (hostAccess (rd 1 0x1000) (busyWith 0 State.reset)) (·.draws) = some 1 := by decide
theorem test_read_while_pending_draws :
    after (hostAccess (rd 1 0x0059) (busyWith 0 State.reset)) (fun t => (t.draws, t.pending)) = some (1, some 0) := by
  decide
/-- P1: the accesses of `wrbytes`. -/
theorem test_wrbytes_expansion :
    (ScriptLine.wrbytes 0x1000 [1, 2, 3, 4, 5, 6, 7]).events =
    [.access (wr 0x1000 0x01020304), .access ⟨0x1004, 2, .write 0x0506⟩, .access ⟨0x1006, 1, .write 0x07⟩] := by decide
theorem test_wait_is_turn_then_poll : ScriptLine.wait.events = [.engine, .access (rd 4 0x0004)] := by decide
theorem test_power_loss_stops : step { State.reset with schedule := [.powerLoss] } = .fault .powerOff := rfl
theorem test_mem_canonical :
    Memory.write (Memory.write [(5, 1)] 3 9) 5 2 = [(3, 9), (5, 2)] ∧ Memory.wf [(3, 9), (5, 2)] = true ∧
    Memory.wf [(5, 2), (3, 9)] = false := by decide

/-! ### Witnesses: for every statement with hypotheses, inputs that meet them, at the boundaries of each clause -/

theorem witness_DecodeEncodeAgree :
    (Instr.bldreg 0).WellFormed ∧ (Instr.bldreg 31).WellFormed ∧ (Instr.zeroize).WellFormed := by decide
theorem witness_OpcodeTableDecides : ∃ r ∈ opcodeTable, (0x00001F03 : Word) &&& r.mask = r.pattern := by decide
theorem witness_IllegalWordsEndIllegal :
    (∀ w ∈ ([0x00002003, 0x80000041, 0x00000004, 0x000000FF, 0x00000100, 0x00001F41] : List Word), IllegalWord w) ∧
    (∀ w ∈ ([0x00001503, 0x00001F03] : List Word),
      ¬ IllegalWord w ∧ w.extractLsb' 0 8 = 0x03 ∧ 20 < (w.extractLsb' 8 5).toNat) ∧
    (busyWith 0x00002003 tiny).pending = some 0x00002003 ∧ (busyWith 0x00001503 tiny).pending = some 0x00001503 := by
  unfold IllegalWord
  exact ⟨by simp, by simp, rfl, rfl⟩
theorem witness_StepRunsDecodedCommand :
    (busyWith 0x41 tiny).pending = some 0x41 ∧ decodeWord 0x41 = .ok .encrypt ∧ (busyWith 0x41 tiny).schedule = [] ∧
    ({ busyWith 0x41 tiny with schedule := [.engine, .reset] } : State).schedule = .engine :: [.reset] := by decide
theorem witness_FetchWordRunsCommand : (Instr.bldreg 31).WellFormed ∧ Instr.ipek.WellFormed := by decide
theorem witness_IdleStepChangesNothing : tiny.schedule = [] ∧ tiny.pending = none := by decide
theorem witness_ResetGivesResetState :
    ({ busyWith 0x41 tiny with schedule := [.reset, .engine] } : State).schedule = .reset :: [.engine] := by decide

theorem tiny_inv : Inv (busyWith 0x31 tiny) := by
  constructor <;> first | decide | (unfold LegalBuild; decide)

theorem witness_StepKeepsInvariant : Inv (busyWith 0x31 tiny) ∧ ∃ t, step (busyWith 0x31 tiny) = .next t :=
  ⟨tiny_inv, _, rfl⟩
theorem witness_ScheduleDrains :
    ∃ t, Host.Core.run core 3 { busyWith 0x30 tiny with schedule := [.engine, .access (wr 0 0x31)] } = .next t :=
  ⟨_, rfl⟩
theorem witness_NopCommand :
    (0x80000000 : Word).extractLsb' 0 8 = 0x00 ∧ (0x80000000 : Word) ≠ 0 ∧
    (∃ t, ({ tiny with ctrl := 1 } : State).ctrl.getLsbD 0 = true ∧ exec .nop { tiny with ctrl := 1 } = .next t) ∧
    (busyWith 0x20 tiny).pending = some 0x20 := ⟨by decide, by decide, ⟨_, by decide, rfl⟩, by decide⟩
theorem witness_ExtksiCommand : tiny.ksnLen = 10 ∧ ({ tiny with ksnLen := 9 } : State).ksnLen ≠ 10 := by decide
theorem witness_ExtctrCommand : tiny.ksnLen = 10 ∧ ({ tiny with ksnLen := 11 } : State).ksnLen ≠ 10 := by decide
theorem witness_BldregCommand : 20 ≤ 20 ∧ 20 < 21 := by decide
theorem witness_IpekCommand :
    (tiny.bdkLen = 16 ∧ tiny.ksnLen = 10) ∧ ({ tiny with bdkLen := 0xFFFFFFFF } : State).bdkLen ≠ 16 ∧
    (({ tiny with ksnLen := 9 } : State).bdkLen = 16 ∧ ({ tiny with ksnLen := 9 } : State).ksnLen ≠ 10) := by decide
theorem witness_WalkCommand : tiny.ksnLen = 10 ∧ ({ tiny with ksnLen := 0 } : State).ksnLen ≠ 10 := by decide
theorem witness_EcbCommand :
    (tiny.ptLen.toNat = tiny.dataBytes.toNat ∧ WrittenBelow tiny.data tiny.ptLen.toNat) ∧
    (({ State.reset with dataBytes := 8 } : State).ptLen.toNat = 0 ∧ WrittenBelow State.reset.data 0) ∧
    ({ tiny with ptLen := 9 } : State).dataBytes.toNat < ({ tiny with ptLen := 9 } : State).ptLen.toNat := by
  unfold WrittenBelow; decide
theorem witness_UnwrittenPlaintextStops :
    ∃ s : State, ∃ i, s.ptLen.toNat ≤ s.dataBytes.toNat ∧ i + 1 = s.ptLen.toNat ∧ s.data.read i = none ∧
      WrittenBelow s.data i ∧ s.bdkLen = 16 ∧ s.ksnLen = 10 :=
  ⟨{ tiny with data := [(0, 1), (1, 2), (2, 3)], ptLen := 4 }, 3, by unfold WrittenBelow; decide⟩
theorem witness_EncryptCommand :
    (tiny.bdkLen = 16 ∧ tiny.ksnLen = 10 ∧ tiny.ptLen.toNat ≤ tiny.dataBytes.toNat ∧
      WrittenBelow tiny.data tiny.ptLen.toNat) ∧
    ({ tiny with bdkLen := 0 } : State).bdkLen ≠ 16 ∧
    (({ tiny with ksnLen := 0 } : State).bdkLen = 16 ∧ ({ tiny with ksnLen := 0 } : State).ksnLen ≠ 10) ∧
    (({ tiny with ptLen := 9 } : State).bdkLen = 16 ∧ ({ tiny with ptLen := 9 } : State).ksnLen = 10 ∧
      ({ tiny with ptLen := 9 } : State).dataBytes.toNat < ({ tiny with ptLen := 9 } : State).ptLen.toNat) := by
  unfold WrittenBelow; decide
theorem witness_ErrorsFollowCheckOrder :
    ((busyWith 0x2003 tiny).pending = some 0x2003 ∧ IllegalWord 0x2003) ∧
    ((busyWith 0x10 { tiny with bdkLen := 15, ksnLen := 9 }).pending = some 0x10 ∧ decodeWord 0x10 = .ok .ipek ∧
      check .ipek (busyWith 0x10 { tiny with bdkLen := 15, ksnLen := 9 }) = some .bdkLen) ∧
    (decodeWord 0x30 = .ok .variant ∧ check .variant (busyWith 0x30 tiny) = none ∧
      ∃ t, engineTurn (busyWith 0x30 tiny) = .next t) :=
  ⟨by unfold IllegalWord; decide, by decide, by decide, by decide, _, rfl⟩
theorem witness_FailedCommandChangesOnlyStatus :
    ∃ t, exec .ecb { tiny with ptLen := 9 } = .next t ∧ Status.err t.status = true := ⟨_, rfl, by decide⟩
theorem witness_EveryCompletionSetsDone : ∃ t, exec .norm tiny = .next t := ⟨_, rfl⟩
theorem witness_EngineWritesColumn :
    (∃ t, exec .extctr tiny = .next t ∧ t.ctr ≠ tiny.ctr) ∧
    (∃ t, exec .zeroize tiny = .next t ∧ t.data.read 0 ≠ tiny.data.read 0 ∧ t.ksn ≠ tiny.ksn) ∧
    (∃ t, exec (.bldreg 0) tiny = .next t ∧ t.reg ≠ tiny.reg) :=
  ⟨⟨_, rfl, by decide⟩, ⟨_, rfl, by decide⟩, ⟨_, rfl, by decide⟩⟩
theorem witness_CmdWriteIssues : tiny.pending = none ∧ (busyWith 0x41 tiny).pending ≠ none := by decide
theorem legal_accesses :
    (LegalAccess 8 0x0040 4 ∧ LegalAccess 8 0x0059 1 ∧ LegalAccess 8 0x0058 4 ∧ LegalAccess 8 0x006E 2) ∧
    (LegalAccess 8 0x1004 4 ∧ LegalAccess 8 0x1007 1 ∧ ¬ LegalAccess 8 0x1008 1 ∧ LegalAccess 8 0x0014 4) := by
  unfold LegalAccess UnassignedOffset
  exact ⟨⟨by decide, by decide, by decide, by decide⟩, by decide, by decide, by decide, by decide⟩
theorem witness_PendingDropsOperandWrites :
    (busyWith 0x41 tiny).pending ≠ none ∧ (LegalAccess 8 0x0058 4 ∧ OperandOffset 8 (0x0058 + 1)) ∧
    (LegalAccess 8 0x1007 1 ∧ OperandOffset 8 0x1007) ∧ LegalAccess 8 0x0014 4 := by
  unfold OperandOffset
  exact ⟨by decide, ⟨legal_accesses.1.2.2.1, by decide⟩, ⟨legal_accesses.2.2.1, by decide⟩, legal_accesses.2.2.2.2⟩
theorem witness_StatusWriteClears :
    Inv (busyWith 0x31 tiny) ∧ Status.busy (busyWith 0x31 tiny).status = true ∧ (0x00000002 : Word).getLsbD 3 = false ∧
    (0x00000002 : Word).getLsbD 1 = true ∧ (0x00000008 : Word).getLsbD 1 = false ∧ (0x00000008 : Word).getLsbD 3 = true :=
  ⟨tiny_inv, by decide, by decide, by decide, by decide, by decide⟩
theorem witness_LengthRegisterWrites : tiny.pending = none := by decide
theorem witness_ArrayWriteSetsBytes :
    tiny.pending = none ∧
    (LegalAccess 8 0x0040 4 ∧ LegalAccess 8 0x0059 1 ∧ LegalAccess 8 0x0058 4 ∧ LegalAccess 8 0x006E 2) ∧
    LegalAccess 8 0x1004 4 ∧ LegalAccess 8 0x1007 1 :=
  ⟨by decide, legal_accesses.1, legal_accesses.2.1, legal_accesses.2.2.1⟩
theorem witness_ScalarReadsReturnRegister : tiny.pending = none := by decide
theorem witness_ByteReadsReturnByte :
    (0x005A ∈ [0x005A, 0x005B, 0x007A, 0x007B, 0x008A, 0x008B]) ∧ (0x008A ∈ [0x005A, 0x007A, 0x008A]) ∧
    tiny.pending = none ∧ 9 < 10 ∧ 7 < tiny.dataBytes.toNat ∧ tiny.data.read 7 = some 8 := by decide
theorem witness_WideReadIsBigEndian :
    tiny.pending = none ∧ (∃ t, hostAccess ⟨0x0040, 4, .read⟩ tiny = .next t) ∧
    (∃ t, hostAccess ⟨0x1004, 4, .read⟩ tiny = .next t) ∧ ∃ t, hostAccess ⟨0x0088, 2, .read⟩ tiny = .next t :=
  ⟨by decide, ⟨_, rfl⟩, ⟨_, rfl⟩, ⟨_, rfl⟩⟩
theorem witness_ReadsChangeNothing :
    tiny.pending = none ∧ (∃ t, hostAccess ⟨0x0050, 4, .read⟩ tiny = .next t) ∧
    ∃ t, hostAccess ⟨0x1000, 1, .read⟩ (busyWith 0x41 tiny) = .next t := ⟨by decide, ⟨_, rfl⟩, ⟨_, rfl⟩⟩
theorem witness_KeyRegistersReadZero :
    (0x0040 % 4 = 0 ∧ 0x0040 ≤ 0x0040 ∧ 0x0040 + 4 ≤ 0x0050) ∧ (0x006F % 1 = 0 ∧ 0x0060 ≤ 0x006F ∧ 0x006F + 1 ≤ 0x0070) := by
  decide
theorem witness_UnwrittenDataReadFaults :
    State.reset.pending = none ∧ 4095 < State.reset.dataBytes.toNat ∧ State.reset.data.read 4095 = none := by decide
theorem witness_ReadOnlyWritesIgnored :
    LegalAccess 8 0x0020 4 ∧ (LegalAccess 8 0x0088 4 ∧ ∀ j, j < 4 → ¬ OperandOffset 8 (0x0088 + j)) ∧
    (LegalAccess 8 0x005A 2 ∧ ∀ j, j < 2 → ¬ OperandOffset 8 (0x005A + j)) := by
  unfold LegalAccess UnassignedOffset OperandOffset
  exact ⟨by decide, ⟨by decide, by decide⟩, by decide, by decide⟩
theorem witness_HostCannotWriteEngineRegisters :
    (∃ t, hostAccess (wr 0x0070 0xFFFFFFFF) tiny = .next t) ∧
    ∃ t, (busyWith 0x41 tiny).pending ≠ none ∧ hostAccess (wr 0 0) (busyWith 0x41 tiny) = .next t :=
  ⟨⟨_, rfl⟩, ⟨_, by decide, rfl⟩⟩
theorem witness_WindowPlacement :
    (∃ addr o, o < 0x10000 ∧ o + 1 = 0x10000 ∧ addr = Config.windowBase + o) ∧
    ∃ addr, Config.windowBase + 0x10000 ≤ addr := ⟨⟨_, 0xFFFF, by decide, by decide, rfl⟩, ⟨_, Nat.le_refl _⟩⟩
theorem witness_PendingReadIsUnspecified :
    ((busyWith 0x41 tiny).pending ≠ none ∧ 0x0018 ∈ [0x000C, 0x0010, 0x0014, 0x0018, 0x001C]) ∧
    (LegalAccess 8 0x0058 4 ∧ UnspecifiedOffset 8 (0x0058 + 1) ∧ ¬ UnspecifiedOffset 8 (0x0058 + 2)) ∧
    (LegalAccess 8 0x1007 1 ∧ UnspecifiedOffset 8 0x1007) ∧
    (LegalAccess 8 0x0040 4 ∧ ∀ j, j < 4 → ¬ UnspecifiedOffset 8 (0x0040 + j)) := by
  unfold UnspecifiedOffset
  exact ⟨by decide, ⟨legal_accesses.1.2.2.1, by decide, by decide⟩, ⟨legal_accesses.2.2.1, by decide⟩,
    legal_accesses.1.1, by decide⟩
theorem witness_HostReadsNeverShowKeys :
    SameButKeys tiny { tiny with bdk := 1, k := 2, tk := 3 } ∧ tiny ≠ { tiny with bdk := 1, k := 2, tk := 3 } := by
  unfold SameButKeys; decide
theorem witness_OnlyCiphertextCarriesKeys :
    SameButKeys (busyWith 0x10 tiny) { busyWith 0x10 tiny with bdk := 1, k := 2, tk := 3 } ∧
    (busyWith 0x10 tiny).schedule = [] ∧
    ∀ w, (busyWith 0x10 tiny).pending = some w → decodeWord w ≠ .ok .ecb ∧ decodeWord w ≠ .ok .encrypt := by
  refine ⟨by unfold SameButKeys; decide, by decide, fun w h => ?_⟩
  cases h
  decide
theorem witness_OvrClearedOnlyByHostOrReset :
    ∃ t, step { tiny with status := 0x0000000A, schedule := [.access (wr 0x0004 0x00000008)] } = .next t ∧
      Status.ovr 0x0000000A = true ∧ Status.ovr t.status = false := ⟨_, rfl, by decide, by decide⟩
theorem witness_IrqLevelStaysUntilCleared :
    ∃ t, step { tiny with status := 0x00000002, ctrl := 1, schedule := [.access (wr 0x0008 0x00000000)] } = .next t ∧
      irq { tiny with status := 0x00000002, ctrl := 1, schedule := [.access (wr 0x0008 0x00000000)] } = true ∧
      irq t = false := ⟨_, rfl, by decide, by decide⟩
theorem witness_IrqRaisedAndCleared :
    (∃ t, exec .variant { tiny with ctrl := 1 } = .next t) ∧
    (∃ t, (0x00000002 : Word).getLsbD 1 = true ∧ hostAccess (wr 0x0004 0x00000002) tiny = .next t) ∧
    ∃ t, tiny.pending = none ∧ hostAccess (wr 0x0000 0x00000041) tiny = .next t :=
  ⟨⟨_, rfl⟩, ⟨_, by decide, rfl⟩, ⟨_, by decide, rfl⟩⟩
theorem witness_ParityBitsIgnored :
    (0x0101010101010101 : Block) &&& 0xFEFEFEFEFEFEFEFE = (0 : Block) &&& 0xFEFEFEFEFEFEFEFE := by decide
theorem witness_EqualThirdsReduceToSingleDes :
    (0x0101010101010101_0000000000000000_133457799BBCDFF1 : TripleKey).extractLsb' 128 64 &&& 0xFEFEFEFEFEFEFEFE =
    (0x0101010101010101_0000000000000000_133457799BBCDFF1 : TripleKey).extractLsb' 64 64 &&& 0xFEFEFEFEFEFEFEFE := by decide
theorem witness_IpekIgnoresCounter :
    (0xFFFF9876543210E00000 : Ksn) >>> 21 = (0xFFFF9876543210FFFFFF : Ksn) >>> 21 := by decide
theorem witness_WalkIgnoresLeadingBytes :
    (0xFFFF9876543210E00000 : Ksn).toNat % 2 ^ 21 = 0 ∧
    (0xFFFF9876543210E00003 : Ksn).extractLsb' 0 64 = (0x00009876543210E00003 : Ksn).extractLsb' 0 64 := by decide
theorem witness_ManualStepIsWalkStep :
    ∃ s : State, 20 ≤ 20 ∧ s.ksnLen = 10 ∧ s.ksi = s.ksn &&& 0xFFFFFFFFFFFFFFE00000 ∧ s.ksn.toNat % 2 ^ 21 = 2 ^ 20 :=
  ⟨{ keyed 0xFFFF9876543210F00000 with ksi := 0xFFFF9876543210E00000 }, by decide⟩
theorem witness_PaddingIsZeroBytes :
    ([1, 2, 3, 4, 5, 6, 7, 8, 9] : List Byte).length + 7 ≤
      (([1, 2, 3, 4, 5, 6, 7, 8, 9] : List Byte).length + 7) / 8 * 8 := by decide
theorem witness_EncryptEqualsSequence :
    ∃ t, exec .encrypt tiny = .next t ∧ Status.err t.status = false := ⟨_, rfl, by decide⟩

end Sys2Proof.Tests
end

/-! PROOF. What a host write of STATUS does to its fields (R24). -/

namespace Sys2Proof.Machine

/-- A bit of STATUS outside 7:4 and 31:12 is a flag or a bit of ERRCODE (R23). -/
theorem Status.mem_field_of_not_reserved :
    ∀ j < 32, (0xFFFFF0F0#32).getLsbD j = false → j ∈ [0, 1, 2, 3] ∨ ∃ i < 4, j = 8 + i := by decide

/-- STATUS is its five fields and the reserved bits (R23). -/
theorem Status.eq_of_fields_eq {a b : Word} (hbusy : Status.busy a = Status.busy b)
    (hdone : Status.done a = Status.done b) (herr : Status.err a = Status.err b)
    (hovr : Status.ovr a = Status.ovr b) (hcode : Status.errCode a = Status.errCode b)
    (hreserved : a &&& 0xFFFFF0F0#32 = b &&& 0xFFFFF0F0#32) : a = b := by
  apply BitVec.eq_of_getLsbD_eq
  intro j hj
  cases hm : (0xFFFFF0F0#32).getLsbD j with
  | true => simpa [hm] using congrArg (·.getLsbD j) hreserved
  | false =>
    rcases Status.mem_field_of_not_reserved j hj hm with hflag | ⟨i, hi, rfl⟩
    · simp only [List.mem_cons, List.not_mem_nil, or_false] at hflag
      rcases hflag with rfl | rfl | rfl | rfl
      · exact hbusy
      · exact hdone
      · exact herr
      · exact hovr
    · simpa [Status.errCode, hi] using congrArg (·.getLsbD i) hcode

@[simp] theorem Status.reserved_hostWrite (st v : Word) :
    Status.hostWrite st v &&& 0xFFFFF0F0#32 = st &&& 0xFFFFF0F0#32 := by
  simp only [Status.hostWrite]
  split <;> split <;> simp [BitVec.and_assoc]

/-- A write with neither bit changes nothing (R24). -/
theorem Status.hostWrite_of_neither (st : Word) {v : Word} (h1 : v.getLsbD 1 = false) (h3 : v.getLsbD 3 = false) :
    Status.hostWrite st v = st := by
  simp only [Status.hostWrite, h1, h3, Bool.false_eq_true, if_false]

/-- Bit 1 has no effect where DONE, ERR and ERRCODE are already 0 (R24). -/
theorem Status.hostWrite_of_quiet {st v : Word}
    (hquiet : Status.done st = false ∧ Status.err st = false ∧ Status.errCode st = 0) (h3 : v.getLsbD 3 = false) :
    Status.hostWrite st v = st := by
  obtain ⟨hdone, herr, hcode⟩ := hquiet
  apply Status.eq_of_fields_eq <;> simp [hdone, herr, hcode, h3, -BitVec.getLsbD_eq_getElem]

/-- A 32-bit write at STATUS's offset is performed in every state (R24, R57). -/
theorem hostAccess_write_status (s : State) (v : Word) :
    hostAccess ⟨0x0004, 4, .write v⟩ s = .next { s with status := Status.hostWrite s.status v } :=
  hostAccess_write v (legalAccess_scalar _ (by decide) (by decide))

/-- Settles O32: the write is `Status.hostWrite`, whose fields are known one by one. -/
theorem statusWriteClears : Obligations.StatusWriteClears := by
  intro s v
  refine ⟨_, hostAccess_write_status s v, rfl, ?bit1, ?noBit1, ?bit3, ?noBit3, ?neither, ?busy, ?reserved, ?whileBusy⟩
  case bit1 | noBit1 | bit3 | noBit3 => intro h; simp [h, -BitVec.getLsbD_eq_getElem]
  case neither =>
    intro h1 h3
    rw [Status.hostWrite_of_neither _ h1 h3]
  case busy => exact Status.busy_hostWrite _ _
  case reserved => exact Status.reserved_hostWrite _ _
  case whileBusy =>
    intro hinv hbusy h3
    rw [Status.hostWrite_of_quiet (hinv.busy_quiet hbusy) h3]

end Sys2Proof.Machine

/-! PROOF. Where a host address falls (R51). -/

namespace Sys2Proof.Machine

/-- The platform's alignment, wherever it puts the window (R51). -/
theorem Config.windowBase_mod : Config.windowBase % 0x10000 = 0 := by
  unfold Config.windowBase
  exact Nat.mul_mod_left _ _

theorem offsetOf_windowBase_add {o : Nat} (ho : o < 0x10000) : offsetOf (Config.windowBase + o) = some o := by
  have hin : Config.windowBase ≤ Config.windowBase + o ∧ Config.windowBase + o < Config.windowBase + 0x10000 := by omega
  rw [offsetOf, if_pos hin, Nat.add_sub_cancel_left]

theorem offsetOf_eq_none_iff {addr : Nat} :
    offsetOf addr = none ↔ addr < Config.windowBase ∨ Config.windowBase + 0x10000 ≤ addr := by
  simp only [offsetOf, ite_eq_right_iff, reduceCtorEq, imp_false]
  omega

theorem busCycle_of_offsetOf_some {addr o : Nat} (h : offsetOf addr = some o) (n : Nat) (op : AccessOp) (s : State) :
    busCycle addr n op s = hostAccess ⟨o, n, op⟩ s := by
  unfold busCycle
  rw [h]

theorem busCycle_of_offsetOf_none {addr : Nat} (h : offsetOf addr = none) (n : Nat) (op : AccessOp) (s : State) :
    busCycle addr n op s = .next s := by
  unfold busCycle
  rw [h]

/-- Settles O45: the offset of an address decides between the access and no effect. -/
theorem windowPlacement : Obligations.WindowPlacement := by
  intro s addr n op
  refine ⟨?inside, ?outside, Config.windowBase_mod⟩
  case inside =>
    intro o ho haddr
    have hoffset : offsetOf addr = some o := by rw [haddr, offsetOf_windowBase_add ho]
    exact busCycle_of_offsetOf_some hoffset n op s
  case outside =>
    intro hout
    exact busCycle_of_offsetOf_none (offsetOf_eq_none_iff.2 hout) n op s

end Sys2Proof.Machine

/-! PROOF. Which error a completion records (R212). -/

namespace Sys2Proof.Machine

/-! ### ILLEGAL comes first (R84, R85) -/

theorem instrOfOp_of_unassigned {op : Byte} (pos : Nat)
    (h : op ∉ ([0x00, 0x01, 0x02, 0x03, 0x10, 0x20, 0x21, 0x30, 0x31, 0x40, 0x41, 0xF0] : List Byte)) :
    instrOfOp op pos = none := by
  simp only [List.mem_cons, List.not_mem_nil, or_false, not_or] at h
  simp only [instrOfOp, h, if_false]

/-- Each of R85's three kinds of illegal word fails at its own test of `decodeWord`. -/
theorem decodeWord_of_illegalWord {w : Word} (h : IllegalWord w) : ∃ e, decodeWord w = .error e := by
  unfold decodeWord
  by_cases hrsvd : rsvdField w ≠ 0
  · exact ⟨_, if_pos hrsvd⟩
  rw [if_neg hrsvd]
  cases hop : instrOfOp (opField w) (posField w).toNat with
  | none => exact ⟨_, rfl⟩
  | some i =>
    rcases h with h | h | ⟨hpos, hop3⟩
    · exact absurd h hrsvd
    · simp [instrOfOp_of_unassigned (op := opField w) _ h] at hop
    · exact ⟨_, if_pos ⟨hop3, hpos⟩⟩

/-! ### The engine's turn with a word pending (R41) -/

theorem engineTurn_of_decodeWord_error {s : State} {w : Word} {e : DecodeError} (hw : s.pending = some w)
    (hd : decodeWord w = .error e) : engineTurn s = .next (raiseCmdError .illegal s) := by
  simp [engineTurn, completePending, hw, hd]

theorem engineTurn_of_decodeWord_ok {s : State} {w : Word} {i : Instr} (hw : s.pending = some w)
    (hd : decodeWord w = .ok i) : engineTurn s = exec i s := by
  simp [engineTurn, completePending, hw, hd]

/-! ### Every command answers its check -/

/-- From `s`, the answer `r` ends with the check's error `c`; with no error, it can only be a completion without one. -/
structure AnswersCheck (s : State) (c : Option CmdError) (r : Result) : Prop where
  failed : ∀ e, c = some e → r = .next (raiseCmdError e s)
  passed : c = none → ∀ t, r = .next t → ∃ u, t = completeCommand u

theorem answersCheck_completeCommand (s u : State) : AnswersCheck s none (.next (completeCommand u)) where
  failed := by simp
  passed _ _ h := ⟨u, (Host.Outcome.next.inj h).symm⟩

theorem answersCheck_ecbInPlace (s u : State) (tk : TripleKey) : AnswersCheck s none (ecbInPlace tk u) where
  failed := by simp
  passed _ _ h := by
    obtain ⟨pt, -, ht⟩ := ecbInPlace_next h
    exact ⟨_, ht⟩

/-- A test put before an answer puts its error before the answer's check: the step behind R212's order. -/
theorem AnswersCheck.guarded {s : State} {c : Option CmdError} {r : Result} (h : AnswersCheck s c r) (p : Prop)
    [Decidable p] (e : CmdError) :
    AnswersCheck s (if p then some e else c) (if p then .next (raiseCmdError e s) else r) := by
  by_cases hp : p
  · rw [if_pos hp, if_pos hp]
    exact { failed := by simp, passed := by simp }
  · rwa [if_neg hp, if_neg hp]

theorem AnswersCheck.bdkLen {s : State} {c : Option CmdError} {r : Result} (h : AnswersCheck s c r) :
    AnswersCheck s (if s.bdkLen ≠ 16 then some .bdkLen else c) (requireBdkLen s r) := h.guarded _ _

theorem AnswersCheck.ksnLen {s : State} {c : Option CmdError} {r : Result} (h : AnswersCheck s c r) :
    AnswersCheck s (if s.ksnLen ≠ 10 then some .ksnLen else c) (requireKsnLen s r) := h.guarded _ _

theorem AnswersCheck.ptLen {s : State} {c : Option CmdError} {r : Result} (h : AnswersCheck s c r) :
    AnswersCheck s (if s.ptLen.toNat > s.dataBytes.toNat then some .ptLen else c) (requirePtLen s r) := h.guarded _ _

/-- The tests each command makes, in the order it makes them, are the ones `check` lists. -/
theorem exec_answersCheck (i : Instr) (s : State) : AnswersCheck s (check i s) (exec i s) := by
  cases i with
  | nop => exact answersCheck_completeCommand s _
  | extksi => exact (answersCheck_completeCommand s _).ksnLen
  | extctr => exact (answersCheck_completeCommand s _).ksnLen
  | bldreg p => exact (answersCheck_completeCommand s _).guarded (p > 20) .badPos
  | ipek => exact (answersCheck_completeCommand s _).ksnLen.bdkLen
  | nrkgp => exact answersCheck_completeCommand s _
  | walk => exact (answersCheck_completeCommand s _).ksnLen
  | variant => exact answersCheck_completeCommand s _
  | norm => exact answersCheck_completeCommand s _
  | ecb => exact (answersCheck_ecbInPlace s s _).ptLen
  | encrypt => exact (answersCheck_ecbInPlace s _ _).ptLen.ksnLen.bdkLen
  | zeroize => exact answersCheck_completeCommand s _

/-- Settles O25: an illegal word does not decode, and a decoded command answers its check. -/
theorem errorsFollowCheckOrder : Obligations.ErrorsFollowCheckOrder := by
  intro s w hw
  refine ⟨?illegal, ?failed, ?passed⟩
  case illegal =>
    intro hillegal
    obtain ⟨e, hd⟩ := decodeWord_of_illegalWord hillegal
    exact ⟨_, engineTurn_of_decodeWord_error hw hd, Status.errCode_fail s.status .illegal⟩
  case failed =>
    intro i hd e hcheck
    have hturn : engineTurn s = .next (raiseCmdError e s) := by
      rw [engineTurn_of_decodeWord_ok hw hd, (exec_answersCheck i s).failed e hcheck]
    exact ⟨_, hturn, Status.errCode_fail s.status e⟩
  case passed =>
    intro i hd hcheck t ht
    rw [engineTurn_of_decodeWord_ok hw hd] at ht
    obtain ⟨u, rfl⟩ := (exec_answersCheck i s).passed hcheck t ht
    exact Status.errCode_complete u.status

end Sys2Proof.Machine

/-! PROOF. The decoder and the encoder agree, and the opcode map decides (R80 to R86). -/

namespace Sys2Proof

/-! ### A word is its three fields (R80) -/

theorem fields_append (w : Word) : rsvdField w ++ posField w ++ opField w = w := by
  apply BitVec.eq_of_getLsbD_eq
  intro j hj
  simp only [rsvdField, posField, opField, BitVec.getLsbD_append, BitVec.getLsbD_extractLsb']
  by_cases hop : j < 8
  · simp [hop]
  · by_cases hpos : j - 8 < 5
    · simp [hop, hpos, show 8 + (j - 8) = j by omega]
    · simp [hop, hpos, show j - 8 - 5 < 19 by omega, show 13 + (j - 8 - 5) = j by omega]

/-! ### What `decodeWord` answers -/

/-- `decodeWord`'s three tests, passed (R84). -/
theorem decodeWord_eq_ok_iff {w : Word} {i : Instr} :
    decodeWord w = .ok i ↔
      rsvdField w = 0 ∧ (opField w = 0x03 ∨ posField w = 0) ∧ instrOfOp (opField w) (posField w).toNat = some i := by
  unfold decodeWord
  by_cases hrsvd : rsvdField w ≠ 0
  · rw [if_pos hrsvd]
    exact iff_of_false (by simp) fun h => hrsvd h.1
  rw [if_neg hrsvd]
  cases instrOfOp (opField w) (posField w).toNat with
  | none => simp
  | some i' =>
    dsimp only
    split_ifs with hpos
    · exact iff_of_false (by simp) fun h => h.2.1.elim hpos.1 hpos.2
    · have hok : opField w = 0x03 ∨ posField w = 0 := by tauto
      exact ⟨fun h => ⟨not_not.1 hrsvd, hok, congrArg some (Except.ok.inj h)⟩,
        fun h => congrArg Except.ok (Option.some.inj h.2.2)⟩

/-- Each row of the map names the command whose word has that OP and POS. -/
theorem encode_of_instrOfOp {op : Byte} {pos : BitVec 5} {i : Instr} (hpos : op = 0x03 ∨ pos = 0)
    (h : instrOfOp op pos.toNat = some i) : i.WellFormed ∧ encode i = 0#19 ++ pos ++ op := by
  by_cases hop : op = 0x03
  · subst hop
    obtain rfl : Instr.bldreg pos.toNat = i := Option.some.inj h
    revert pos
    decide
  · obtain rfl := hpos.resolve_left hop
    have hassigned : op ∈ ([0x00, 0x01, 0x02, 0x03, 0x10, 0x20, 0x21, 0x30, 0x31, 0x40, 0x41, 0xF0] : List Byte) := by
      by_contra hun
      simp [Machine.instrOfOp_of_unassigned _ hun] at h
    have hrows : ∀ op ∈ ([0x00, 0x01, 0x02, 0x03, 0x10, 0x20, 0x21, 0x30, 0x31, 0x40, 0x41, 0xF0] : List Byte),
        op ≠ 0x03 → ∀ i ∈ instrOfOp op 0, i.WellFormed ∧ encode i = 0#19 ++ 0#5 ++ op := by decide
    exact hrows op hassigned hop i h

/-- The word of a well-formed command decodes to it. -/
theorem decodeWord_encode {i : Instr} (h : i.WellFormed) : decodeWord (encode i) = .ok i := by
  cases i with
  | bldreg pos =>
    have hpos : pos ≤ 31 := by simpa [Instr.WellFormed, Instr.wf] using h
    interval_cases pos <;> decide
  | _ => decide

theorem decodeWord_eq_ok_iff_encode (w : Word) (i : Instr) : decodeWord w = .ok i ↔ i.WellFormed ∧ encode i = w := by
  constructor
  · intro h
    obtain ⟨hrsvd, hpos, hinstr⟩ := decodeWord_eq_ok_iff.1 h
    obtain ⟨hwf, henc⟩ := encode_of_instrOfOp hpos hinstr
    refine ⟨hwf, henc.trans ?_⟩
    rw [show 0#19 = rsvdField w from hrsvd.symm]
    exact fields_append w
  · rintro ⟨hwf, rfl⟩
    exact decodeWord_encode hwf

/-- The four lanes of CMD are the word (R54, R81). -/
theorem be_lanes (w : Word) : BitVec.ofNat 32 (be [beByte 4 w 0, beByte 4 w 1, beByte 4 w 2, beByte 4 w 3]) = w :=
  Machine.be_byteAt_word w

theorem decodeBytes_encodeBytes {i : Instr} (h : i.WellFormed) (rest : List Byte) :
    decodeBytes (encodeBytes i ++ rest) = .ok (i, rest) := by
  have hlanes : encodeBytes i ++ rest =
      beByte 4 (encode i) 0 :: beByte 4 (encode i) 1 :: beByte 4 (encode i) 2 :: beByte 4 (encode i) 3 :: rest := rfl
  rw [hlanes, decodeBytes, be_lanes, decodeWord_encode h]

/-- Settles O2: decoding reads the three fields of which the word is made. -/
theorem decodeEncodeAgree : Obligations.DecodeEncodeAgree :=
  ⟨decodeWord_eq_ok_iff_encode, fun _ rest h => decodeBytes_encodeBytes h rest⟩

/-- Settles O1, by evaluating the decoder. -/
theorem decodeSampleWords : Obligations.DecodeSampleWords := by
  unfold Obligations.DecodeSampleWords
  decide

/-! ### The opcode map (R83) -/

/-- A command's word is in the row of the command. -/
theorem encode_and_mask {i : Instr} (h : i.WellFormed) : encode i &&& (opcodeRow i).mask = (opcodeRow i).pattern := by
  cases i with
  | bldreg pos => exact Laws.TableRow.bldreg pos h
  | _ => rfl

theorem opcodeRow_mem_opcodeTable (i : Instr) : opcodeRow i ∈ opcodeTable := by
  cases i with
  | bldreg pos => exact List.mem_map_of_mem (a := Instr.bldreg 0) (by decide)
  | _ => decide

/-- A word in BLDREG's row is BLDREG's with the word's POS. -/
theorem decodeWord_of_bldreg_row {w : Word} (h : w &&& 0xFFFFE0FF#32 = 0x00000003#32) :
    decodeWord w = .ok (.bldreg (posField w).toNat) := by
  have hrsvd : rsvdField w = 0 := by
    have := congrArg rsvdField h
    have hmask : rsvdField (w &&& 0xFFFFE0FF#32) = rsvdField w &&& rsvdField 0xFFFFE0FF#32 := BitVec.extractLsb'_and ..
    rw [hmask, show rsvdField 0xFFFFE0FF#32 = BitVec.allOnes 19 by decide, BitVec.and_allOnes] at this
    exact this
  have hop : opField w = 0x03 := by
    have := congrArg opField h
    have hmask : opField (w &&& 0xFFFFE0FF#32) = opField w &&& opField 0xFFFFE0FF#32 := BitVec.extractLsb'_and ..
    rw [hmask, show opField 0xFFFFE0FF#32 = BitVec.allOnes 8 by decide, BitVec.and_allOnes] at this
    exact this
  exact decodeWord_eq_ok_iff.2 ⟨hrsvd, .inl hop, by rw [hop]; rfl⟩

/-- A word in a row of the map decodes (R84). -/
theorem exists_decodeWord_of_row {w : Word} {r : OpcodeRow} (hr : r ∈ opcodeTable) (h : w &&& r.mask = r.pattern) :
    ∃ i, decodeWord w = .ok i := by
  have hrows : ∀ r ∈ opcodeTable,
      r = opcodeRow (.bldreg 0) ∨ (r.mask = BitVec.allOnes 32 ∧ (decodeWord r.pattern).isOk = true) := by decide
  rcases hrows r hr with rfl | ⟨hmask, hok⟩
  · exact ⟨_, decodeWord_of_bldreg_row h⟩
  · rw [hmask, BitVec.and_allOnes] at h
    rw [h]
    cases hd : decodeWord r.pattern with
    | ok i => exact ⟨i, rfl⟩
    | error e => simp [hd, Except.isOk, Except.toBool] at hok

/-- Every row fixes all of OP, and no two rows the same OP. -/
theorem opcodeRow_unique {w : Word} {r r' : OpcodeRow} (hr : r ∈ opcodeTable) (hr' : r' ∈ opcodeTable)
    (h : w &&& r.mask = r.pattern) (h' : w &&& r'.mask = r'.pattern) : r = r' := by
  have hop : ∀ r ∈ opcodeTable, w &&& r.mask = r.pattern → r.pattern &&& 0xFF#32 = w &&& 0xFF#32 := by
    intro r hr h
    have hmask : ∀ r ∈ opcodeTable, r.mask &&& 0xFF#32 = 0xFF#32 := by decide
    rw [← h, BitVec.and_assoc, hmask r hr]
  have hinj : ∀ r ∈ opcodeTable, ∀ r' ∈ opcodeTable, r.pattern &&& 0xFF#32 = r'.pattern &&& 0xFF#32 → r = r' := by
    decide
  exact hinj r hr r' hr' ((hop r hr h).trans (hop r' hr' h').symm)

/-- Settles O3: a command's word lies in its row, a word of a row decodes, and the rows differ in OP. -/
theorem opcodeTableDecides : Obligations.OpcodeTableDecides := by
  intro w
  refine ⟨⟨?_, ?_⟩, fun r hr r' hr' => opcodeRow_unique hr hr'⟩
  · rintro ⟨i, hi⟩
    obtain ⟨hwf, rfl⟩ := (decodeWord_eq_ok_iff_encode w i).1 hi
    exact ⟨_, opcodeRow_mem_opcodeTable i, encode_and_mask hwf⟩
  · rintro ⟨r, hr, h⟩
    exact exists_decodeWord_of_row hr h

end Sys2Proof

/-! PROOF. A completion in the statements' own words, and what every completion does (R41, R211). -/

namespace Sys2Proof.Machine

/-! ### Completion, as the statements write it -/

theorem completeCommand_eq (s : State) :
    completeCommand s = { s with status := doneStatus s.status, pending := none } := rfl

theorem CmdError.code_ne_zero (e : CmdError) : e.code ≠ 0 := by cases e <;> decide

/-! ### The reserved bits and OVR (R23) -/

theorem Status.reserved_issue (st : Word) : Status.issue st &&& 0xFFFFF0F0#32 = st &&& 0xFFFFF0F0#32 := by
  simp [Status.issue, Status.completionMask, BitVec.and_assoc, BitVec.and_or_distrib_right]

theorem Status.reserved_complete (st : Word) : Status.complete st &&& 0xFFFFF0F0#32 = st &&& 0xFFFFF0F0#32 := by
  simp [Status.complete, Status.completionMask, BitVec.and_assoc, BitVec.and_or_distrib_right]

theorem Status.reserved_fail (st : Word) (e : CmdError) :
    Status.fail st e &&& 0xFFFFF0F0#32 = st &&& 0xFFFFF0F0#32 := by
  cases e <;>
    simp [Status.fail, Status.completionMask, CmdError.code, BitVec.and_assoc, BitVec.and_or_distrib_right]

theorem Status.reserved_setOvr (st : Word) : Status.setOvr st &&& 0xFFFFF0F0#32 = st &&& 0xFFFFF0F0#32 := by
  simp [Status.setOvr, BitVec.and_or_distrib_right]

/-! ### Every completion -/

/-- Settles O26: without an error ERR is 0, and an error is `raiseCmdError`. -/
theorem failedCommandChangesOnlyStatus : Obligations.FailedCommandChangesOnlyStatus := by
  intro i s t h herr
  rcases exec_next i s t h with ⟨e, rfl⟩ | ⟨u, rfl, -⟩
  · rfl
  · simp at herr

/-- Settles O27, by the two ways a command completes. -/
theorem everyCompletionSetsDone : Obligations.EveryCompletionSetsDone := by
  intro i s t h
  rcases exec_next i s t h with ⟨e, rfl⟩ | ⟨u, rfl, hstatus, -⟩
  · refine ⟨rfl, Status.busy_fail _ _, Status.done_fail _ _, ?_, Status.ovr_fail _ _, Status.reserved_fail _ _⟩
    exact iff_of_true (Status.err_fail _ _) ((Status.errCode_fail _ _).symm ▸ e.code_ne_zero)
  · rw [← hstatus]
    refine ⟨rfl, Status.busy_complete _, Status.done_complete _, ?_, Status.ovr_complete _, Status.reserved_complete _⟩
    exact iff_of_false (by simp) (not_not.2 (Status.errCode_complete _))

theorem requireBdkLen_isNext {s : State} {r : Result} (h : s.bdkLen = 16 → ∃ t, r = .next t) :
    ∃ t, requireBdkLen s r = .next t := by
  by_cases hlen : s.bdkLen = 16
  · rw [requireBdkLen_of_eq r hlen]
    exact h hlen
  · exact ⟨_, requireBdkLen_of_ne r hlen⟩

theorem requireKsnLen_isNext {s : State} {r : Result} (h : s.ksnLen = 10 → ∃ t, r = .next t) :
    ∃ t, requireKsnLen s r = .next t := by
  by_cases hlen : s.ksnLen = 10
  · rw [requireKsnLen_of_eq r hlen]
    exact h hlen
  · exact ⟨_, requireKsnLen_of_ne r hlen⟩

/-- An answer that is a next state, or stops on an unwritten plaintext byte of `s` (93 I2). -/
def NextOrUnwritten (s : State) (r : Result) : Prop :=
  (∃ t, r = .next t) ∨ ∃ a, r = .fault (.unwrittenData a) ∧ a < s.ptLen.toNat ∧ s.data.read a = none

theorem nextOrUnwritten_ecbInPlace (tk : TripleKey) (s : State) : NextOrUnwritten s (ecbInPlace tk s) := by
  cases h : ecbInPlace tk s with
  | next t => exact .inl ⟨t, rfl⟩
  | fault f =>
    obtain ⟨a, rfl, hlt, hnone⟩ := ecbInPlace_fault h
    exact .inr ⟨a, rfl, hlt, hnone⟩
  | refused r => exact absurd h (ecbInPlace_ne_refused tk s r)

/-- A check put before an answer adds only the completion with its error. -/
theorem NextOrUnwritten.guarded {s : State} {r : Result} (h : NextOrUnwritten s r) (p : Prop) [Decidable p]
    (e : CmdError) : NextOrUnwritten s (if p then .next (raiseCmdError e s) else r) := by
  by_cases hp : p
  · rw [if_pos hp]
    exact .inl ⟨_, rfl⟩
  · rwa [if_neg hp]

theorem nextOrUnwritten_ecb (s : State) : NextOrUnwritten s (exec .ecb s) :=
  (nextOrUnwritten_ecbInPlace s.tk s).guarded _ _

theorem nextOrUnwritten_encrypt (s : State) : NextOrUnwritten s (exec .encrypt s) := by
  have h : NextOrUnwritten s (ecbInPlace (transactionKey s.bdk s.ksn) (clearKeys s)) :=
    nextOrUnwritten_ecbInPlace _ (clearKeys s)
  exact ((h.guarded _ _).guarded _ _).guarded _ _

/-- Settles O28: ten commands end in a completion behind their checks, ECB and ENCRYPT in `ecbInPlace`. -/
theorem commandsStopOnlyOnUnwrittenData : Obligations.CommandsStopOnlyOnUnwrittenData := by
  intro i s
  cases i with
  | extksi | extctr | walk => exact .inl (requireKsnLen_isNext fun _ => ⟨_, rfl⟩)
  | ipek => exact .inl (requireBdkLen_isNext fun _ => requireKsnLen_isNext fun _ => ⟨_, rfl⟩)
  | bldreg p => exact .inl (by simp only [exec, execBldreg]; split <;> exact ⟨_, rfl⟩)
  | ecb => exact (nextOrUnwritten_ecb s).imp_right fun h => ⟨.inl rfl, h⟩
  | encrypt => exact (nextOrUnwritten_encrypt s).imp_right fun h => ⟨.inr rfl, h⟩
  | nop | nrkgp | variant | norm | zeroize => exact .inl ⟨_, rfl⟩

/-- Settles O29: what each command's completion writes is read off its own inversion lemma. -/
theorem engineWritesColumn : Obligations.EngineWritesColumn := by
  intro i s t h
  cases i with
  | nop => rw [execNop_next h]; simp
  | extksi => rcases execExtksi_next h with ⟨-, rfl⟩ | ⟨-, rfl⟩ <;> simp
  | extctr => rcases execExtctr_next h with ⟨-, rfl⟩ | ⟨-, rfl⟩ <;> simp
  | bldreg p => rcases execBldreg_next h with ⟨-, rfl⟩ | ⟨-, rfl⟩ <;> simp
  | ipek => rcases execIpek_next h with ⟨-, rfl⟩ | ⟨-, -, rfl⟩ | ⟨-, -, rfl⟩ <;> simp
  | nrkgp => rw [execNrkgp_next h]; simp
  | walk => rcases execWalk_next h with ⟨-, rfl⟩ | ⟨-, rfl⟩ <;> simp
  | variant => rw [execVariant_next h]; simp
  | norm => rw [execNorm_next h]; simp
  | ecb =>
    rcases execEcb_next h with ⟨-, rfl⟩ | ⟨-, h⟩
    · simp
    · obtain ⟨pt, -, rfl⟩ := ecbInPlace_next h
      simp
  | encrypt =>
    rcases execEncrypt_next h with ⟨-, rfl⟩ | ⟨-, -, rfl⟩ | ⟨-, -, -, rfl⟩ | ⟨-, -, -, h⟩
    · simp
    · simp
    · simp
    · obtain ⟨pt, -, rfl⟩ := ecbInPlace_next h
      simp
  | zeroize => rw [execZeroize_next h]; simp

end Sys2Proof.Machine

/-! PROOF. The engine's turn, the schedule and reset (R39, R41, R222, R250, R271). -/

namespace Sys2Proof.Machine

/-! ### Illegal words (R85) -/

/-- BLDREG's word, no illegal one, decodes to BLDREG with the word's POS. -/
theorem decodeWord_of_bldreg {w : Word} (hlegal : ¬ IllegalWord w) (hop : opField w = 0x03) :
    decodeWord w = .ok (.bldreg (posField w).toNat) := by
  have hrsvd : rsvdField w = 0 := by
    by_contra hne
    exact hlegal (.inl hne)
  exact decodeWord_eq_ok_iff.2 ⟨hrsvd, .inl hop, by rw [hop]; rfl⟩

theorem exec_bldreg_of_gt {p : Nat} (s : State) (h : 20 < p) : exec (.bldreg p) s = .next (raiseCmdError .badPos s) :=
  if_pos h

/-- Settles O4: an illegal word does not decode, and BLDREG's position is checked by the command. -/
theorem illegalWordsEndIllegal : Obligations.IllegalWordsEndIllegal := by
  intro s w hw
  refine ⟨fun hillegal => ?_, fun hlegal hop hpos => ?_⟩
  · obtain ⟨e, hd⟩ := decodeWord_of_illegalWord hillegal
    exact engineTurn_of_decodeWord_error hw hd
  · rw [engineTurn_of_decodeWord_ok hw (decodeWord_of_bldreg hlegal hop)]
    exact exec_bldreg_of_gt s hpos

/-! ### Whose turn it is (R222) -/

theorem step_of_schedule_nil {s : State} (h : s.schedule = []) : step s = engineTurn s := by
  simp [step, takeTurn, h]

theorem step_of_schedule_cons {s : State} {e : Event} {rest : List Event} (h : s.schedule = e :: rest) :
    step s = handleEvent e { s with schedule := rest } := by
  simp [step, takeTurn, h]

theorem engineTurn_of_idle {s : State} (h : s.pending = none) : engineTurn s = .next s := by
  simp [engineTurn, h]

/-- Settles O5: the engine moves in both cases, and its turn is the decoded command. -/
theorem stepRunsDecodedCommand : Obligations.StepRunsDecodedCommand := by
  intro s w i hw hd
  refine ⟨fun hnil => ?_, fun rest hcons => ?_⟩
  · rw [step_of_schedule_nil hnil, engineTurn_of_decodeWord_ok hw hd]
  · rw [step_of_schedule_cons hcons]
    exact engineTurn_of_decodeWord_ok (s := { s with schedule := rest }) hw hd

/-- The bits of a command word are the word. -/
theorem tableWord_toNat (w : Word) : tableWord 32 w.toNat = w := by
  rw [tableWord, Nat.mod_eq_of_lt w.isLt, BitVec.ofNat_toNat, BitVec.setWidth_eq]

/-- Settles O6: the word put before the engine decodes back to its command. -/
theorem fetchWordRunsCommand : Obligations.FetchWordRunsCommand := by
  intro s i hwf
  rw [State.withFetchWord, tableWord_toNat, step_of_schedule_cons (withPendingWord_schedule s (encode i))]
  exact engineTurn_of_decodeWord_ok (s := issueCommand (encode i) s) rfl (decodeWord_encode hwf)

/-- Settles O7: the engine moves, with nothing pending. -/
theorem idleStepChangesNothing : Obligations.IdleStepChangesNothing := by
  intro s hnil hidle
  rw [step_of_schedule_nil hnil, engineTurn_of_idle hidle]

/-- Settles O8: the reset event answers `resetBlock`. -/
theorem resetGivesResetState : Obligations.ResetGivesResetState := by
  intro s rest hcons
  refine ⟨resetBlock { s with schedule := rest }, step_of_schedule_cons hcons, ?_⟩
  simp [irq, interruptEnabled]

/-! ### A run ends (R271, R272) -/

/-- The engine's turn leaves nothing pending and the schedule alone. -/
theorem engineTurn_next {s t : State} (h : engineTurn s = .next t) : t.pending = none ∧ t.schedule = s.schedule := by
  rcases engineTurn_cases s with ⟨hidle, heq⟩ | ⟨w, e, -, -, heq⟩ | ⟨w, i, -, -, heq⟩ <;> rw [heq] at h
  · obtain rfl := Host.Outcome.next.inj h
    exact ⟨hidle, rfl⟩
  · obtain rfl := Host.Outcome.next.inj h
    exact ⟨rfl, rfl⟩
  · rcases exec_next i s t h with ⟨e, rfl⟩ | ⟨u, rfl, -, -, hsched, -⟩
    · exact ⟨rfl, rfl⟩
    · exact ⟨rfl, hsched⟩

/-- Every class of write, with the offset where it is performed (R57). -/
theorem memWrite_by_class {P : State → Prop} {o n : Nat} {v : Word} {s : State}
    (status : o = 0x0004 → P { s with status := Status.hostWrite s.status v })
    (ctrl : o = 0x0008 → P { s with ctrl := v &&& 0x00000001 }) (same : P s) (dropped : P (dropWrite s))
    (issued : o = 0x0000 → s.pending = none → P (issueCommand v s)) (bdkLen : P { s with bdkLen := v })
    (ksnLen : P { s with ksnLen := v }) (ptLen : P { s with ptLen := v }) (bytes : P (writeBytes o n v s)) :
    P (memWrite o n v s) := by
  refine iteInduction status fun _ => iteInduction ctrl fun _ => iteInduction (fun _ => same) fun _ =>
    iteInduction (fun _ => dropped) fun hnd => iteInduction (fun ho => issued ho ?_) fun _ =>
    iteInduction (fun _ => bdkLen) fun _ => iteInduction (fun _ => ksnLen) fun _ => iteInduction (fun _ => ptLen)
    fun _ => bytes
  subst ho
  rw [← Option.not_isSome_iff_eq_none]
  exact fun hp => hnd ⟨hp, rfl⟩

theorem memWrite_schedule (o n : Nat) (v : Word) (s : State) : (memWrite o n v s).schedule = s.schedule := by
  refine memWrite_by_class (P := fun t => t.schedule = s.schedule) (fun _ => rfl) (fun _ => rfl) rfl rfl
    (fun _ _ => rfl) rfl rfl rfl ?bytes
  case bytes => rw [writeBytes_eq]

theorem hostAccess_schedule {a : Access} {s t : State} (h : hostAccess a s = .next t) : t.schedule = s.schedule := by
  rcases hostAccess_cases a s with ⟨-, heq⟩ | ⟨-, -, heq⟩ | ⟨v, -, -, heq⟩ <;> rw [heq] at h
  · cases h
  · rw [(memRead_next h).2]
  · obtain rfl := Host.Outcome.next.inj h
    exact memWrite_schedule ..

/-- A bus cycle reaches the block as an access, or changes nothing (R51). -/
theorem busCycle_cases (addr n : Nat) (op : AccessOp) (s : State) :
    busCycle addr n op s = .next s ∨
      ∃ o, addr = Config.windowBase + o ∧ busCycle addr n op s = hostAccess ⟨o, n, op⟩ s := by
  cases h : offsetOf addr with
  | none => exact .inl (busCycle_of_offsetOf_none h n op s)
  | some o =>
    refine .inr ⟨o, ?_, busCycle_of_offsetOf_some h n op s⟩
    unfold offsetOf at h
    split at h
    · have := Option.some.inj h
      omega
    · cases h

theorem handleEvent_schedule {e : Event} {s t : State} (h : handleEvent e s = .next t) : t.schedule = s.schedule := by
  cases e with
  | engine => exact (engineTurn_next h).2
  | access a => exact hostAccess_schedule h
  | busCycle addr width op =>
    rcases busCycle_cases addr width op s with heq | ⟨o, -, heq⟩
    · obtain rfl := Host.Outcome.next.inj (heq.symm.trans h)
      rfl
    · exact hostAccess_schedule (heq.symm.trans h)
  | reset =>
    obtain rfl := Host.Outcome.next.inj h
    rfl
  | powerLoss => cases h

/-- A run that does not stop has a first step. -/
theorem run_succ_next {M : Host.Core} {n : Nat} {s t : M.State} (h : M.run (n + 1) s = .next t) :
    ∃ u, M.step s = .next u ∧ M.run n u = .next t := by
  unfold Host.Core.run at h
  cases hs : M.step s with
  | next u => exact ⟨u, rfl, by rwa [hs] at h⟩
  | fault f => rw [hs] at h; cases h
  | refused r => rw [hs] at h; cases h

/-- Settles O11, by induction on the schedule: each event goes, and then the engine moves once more. -/
theorem scheduleDrains : Obligations.ScheduleDrains := by
  intro s t h
  obtain ⟨events, hevents⟩ : ∃ events, s.schedule = events := ⟨_, rfl⟩
  induction events generalizing s with
  | nil =>
    rw [hevents] at h
    obtain ⟨u, hstep, hrun⟩ := run_succ_next (M := core) h
    obtain rfl : u = t := Host.Outcome.next.inj hrun
    obtain ⟨hpending, hschedule⟩ := engineTurn_next ((step_of_schedule_nil hevents).symm.trans hstep)
    exact ⟨hschedule.trans hevents, hpending⟩
  | cons e rest ih =>
    rw [hevents] at h
    obtain ⟨u, hstep, hrun⟩ := run_succ_next (M := core) h
    have hrest : u.schedule = rest := handleEvent_schedule ((step_of_schedule_cons hevents).symm.trans hstep)
    exact ih u (hrest ▸ hrun) hrest

end Sys2Proof.Machine

/-! PROOF. The KSN utilities, the derivation and the variants (spec 41 to 44), each command's result as arithmetic. -/

namespace Sys2Proof.Machine

/-! ### Bytes of results -/

theorem byteAt_xor {w : Nat} (a b : BitVec w) (i : Nat) : byteAt (a ^^^ b) i = byteAt a i ^^^ byteAt b i :=
  BitVec.extractLsb'_xor ..

theorem byteAt_or {w : Nat} (a b : BitVec w) (i : Nat) : byteAt (a ||| b) i = byteAt a i ||| byteAt b i :=
  BitVec.extractLsb'_or ..

/-- One bit alone lies in one byte. -/
theorem byteAt_oneBit {p i : Nat} (hp : p < 80) (hi : i < 10) :
    byteAt (1#80 <<< p) i = if i = 9 - p / 8 then 1#8 <<< (p % 8) else 0 := by
  apply BitVec.eq_of_getLsbD_eq
  intro j hj
  rw [getLsbD_byteAt]
  split_ifs with h <;>
    simp only [BitVec.getLsbD_shiftLeft, BitVec.getLsbD_one, hj, decide_true, Bool.true_and] <;> grind

theorem byteAt_buildRegister (ksi : Ksn) {p i : Nat} (hp : p ≤ 20) (hi : i < 10) :
    byteAt (buildRegister ksi p) i =
      if i = 9 - p / 8 then byteAt ksi i ||| (1#8 <<< (p % 8)) else byteAt ksi i := by
  rw [buildRegister_eq_or ksi p (by omega), byteAt_or, byteAt_oneBit (by omega) hi]
  split_ifs <;> simp

/-! ### EXTKSI, EXTCTR, BLDREG -/

theorem exec_extksi_of_ne {s : State} (h : s.ksnLen ≠ 10) : exec .extksi s = .next (raiseCmdError .ksnLen s) :=
  requireKsnLen_of_ne _ h

theorem exec_extksi_of_eq {s : State} (h : s.ksnLen = 10) :
    exec .extksi s = .next (completeCommand { s with ksi := extractKSI s.ksn }) := requireKsnLen_of_eq _ h

/-- Settles O13: KSN_LEN decides, and extracting the KSI is the mask. -/
theorem extksiCommand : Obligations.ExtksiCommand := by
  intro s
  refine ⟨fun h => ?_, exec_extksi_of_ne⟩
  rw [exec_extksi_of_eq h, extractKSI_eq_and, completeCommand_eq]

theorem exec_extctr_of_ne {s : State} (h : s.ksnLen ≠ 10) : exec .extctr s = .next (raiseCmdError .ksnLen s) :=
  requireKsnLen_of_ne _ h

theorem exec_extctr_of_eq {s : State} (h : s.ksnLen = 10) :
    exec .extctr s = .next (completeCommand { s with ctr := BitVec.ofNat 32 (extractCounter s.ksn) }) :=
  requireKsnLen_of_eq _ h

/-- Settles O14: KSN_LEN decides, and extracting the counter is the remainder. -/
theorem extctrCommand : Obligations.ExtctrCommand := by
  intro s
  refine ⟨fun h => ?_, exec_extctr_of_ne⟩
  rw [exec_extctr_of_eq h, extractCounter_eq_mod, completeCommand_eq]

theorem exec_bldreg_of_le {p : Nat} (s : State) (h : p ≤ 20) :
    exec (.bldreg p) s = .next (completeCommand { s with reg := buildRegister s.ksi p }) := if_neg (by omega)

/-- Settles O15: the register is KSI or-ed with one bit, which lies in one byte. -/
theorem bldregCommand : Obligations.BldregCommand := by
  intro s p
  exact ⟨fun hp => ⟨_, exec_bldreg_of_le s hp, fun i hi => byteAt_buildRegister s.ksi hp hi⟩, exec_bldreg_of_gt s⟩

/-! ### IPEK -/

theorem exec_ipek_of_bdkLen_ne {s : State} (h : s.bdkLen ≠ 16) : exec .ipek s = .next (raiseCmdError .bdkLen s) :=
  requireBdkLen_of_ne _ h

theorem exec_ipek_of_ksnLen_ne {s : State} (hb : s.bdkLen = 16) (hk : s.ksnLen ≠ 10) :
    exec .ipek s = .next (raiseCmdError .ksnLen s) :=
  (requireBdkLen_of_eq _ hb).trans (requireKsnLen_of_ne _ hk)

theorem exec_ipek_of_eq {s : State} (hb : s.bdkLen = 16) (hk : s.ksnLen = 10) :
    exec .ipek s = .next (completeCommand { s with k := deriveIpek s.bdk s.ksn, bdk := 0, bdkLen := 0 }) :=
  (requireBdkLen_of_eq _ hb).trans (requireKsnLen_of_eq _ hk)

/-- Settles O16: the second IPEK finds the BDK_LEN that the first has cleared. -/
theorem ipekCommand : Obligations.IpekCommand := by
  intro s
  refine ⟨fun hb hk => ⟨_, exec_ipek_of_eq hb hk, rfl, exec_ipek_of_bdkLen_ne ?_⟩, exec_ipek_of_bdkLen_ne,
    exec_ipek_of_ksnLen_ne⟩
  simp

theorem slice_zero_eq_shift (ksn : Ksn) : slice 64 ksn 0 = (ksn >>> 21).extractLsb' 0 59 ++ ksn.extractLsb' 16 5 := by
  apply BitVec.eq_of_getLsbD_eq
  intro j hj
  rw [getLsbD_slice, BitVec.getLsbD_append]
  simp only [BitVec.getLsbD_extractLsb', BitVec.getLsbD_ushiftRight]
  by_cases h : j < 5
  · simp [h, hj]
  · simp [h, hj, show j - 5 < 59 by omega, show 21 + (j - 5) = 16 + j by omega]

/-- The mask leaves the KSN's leftmost 59 bits (R140). -/
theorem maskKsnForIpek_eq (ksn : Ksn) : maskKsnForIpek ksn = (ksn >>> 21).extractLsb' 0 59 ++ 0#5 := by
  have hmask : Config.masks.ksnIpek = BitVec.allOnes 59 ++ 0#5 := by decide
  rw [maskKsnForIpek, slice_zero_eq_shift, hmask, BitVec.and_append, BitVec.and_allOnes, BitVec.and_zero]

/-- Settles O56: the KSN reaches the IPEK through its leftmost 59 bits only. -/
theorem ipekIgnoresCounter : Obligations.IpekIgnoresCounter := by
  intro bdk ksn1 ksn2 h
  rw [deriveIpek, deriveIpek, maskKsnForIpek_eq ksn1, maskKsnForIpek_eq ksn2, h]

/-! ### NRKGP and WALK -/

theorem exec_nrkgp (s : State) : exec .nrkgp s = .next (completeCommand { s with k := nrkgp s.k (lastEight s.reg) }) :=
  rfl

/-- Settles O17: the mask of each half is `C0`x8. -/
theorem nrkgpCommand : Obligations.NrkgpCommand := by
  intro s
  have hleft : leftHalf (s.k ^^^ Config.masks.nrkgp) = s.k.extractLsb' 64 64 ^^^ 0xC0C0C0C0C0C0C0C0#64 :=
    BitVec.extractLsb'_xor ..
  have hright : rightHalf (s.k ^^^ Config.masks.nrkgp) = s.k.extractLsb' 0 64 ^^^ 0xC0C0C0C0C0C0C0C0#64 :=
    BitVec.extractLsb'_xor ..
  rw [exec_nrkgp, nrkgp, hleft, hright]
  rfl

theorem exec_walk_of_ne {s : State} (h : s.ksnLen ≠ 10) : exec .walk s = .next (raiseCmdError .ksnLen s) :=
  requireKsnLen_of_ne _ h

theorem exec_walk_of_eq {s : State} (h : s.ksnLen = 10) :
    exec .walk s = .next (completeCommand { s with k := sessionWalk s.k s.ksn }) := requireKsnLen_of_eq _ h

/-- A counter bit is a KSN bit. -/
theorem testBit_extractCounter (ksn : Ksn) {p : Nat} (hp : p < 21) :
    (extractCounter ksn).testBit p = ksn.getLsbD p := by
  rw [extractCounter_eq_mod, Nat.testBit_mod_two_pow]
  simp [hp, BitVec.getLsbD]

/-- One iteration of the walk, with the register as a mask and one bit (R151). -/
theorem walkStep_eq (ksn : Ksn) (key : Key) {p : Nat} (hp : p < 21) :
    walkStep ksn key p =
      if ksn.getLsbD p then nrkgp key (((ksn &&& 0xFFFFFFFFFFFFFFE00000) ||| (1#80 <<< p)).extractLsb' 0 64)
      else key := by
  rw [walkStep, testBit_extractCounter ksn hp, extractKSI_eq_and, buildRegister_eq_or _ p (by omega)]
  rfl

/-- Settles O18: the two folds agree at every counter bit. -/
theorem walkCommand : Obligations.WalkCommand := by
  intro s
  refine ⟨fun h => ?_, exec_walk_of_ne⟩
  have hfold : sessionWalk s.k s.ksn = (List.range 21).foldl
      (fun key p =>
        if s.ksn.getLsbD p then nrkgp key (((s.ksn &&& 0xFFFFFFFFFFFFFFE00000) ||| (1#80 <<< p)).extractLsb' 0 64)
        else key) s.k :=
    List.foldl_ext _ _ _ fun key p hp => walkStep_eq s.ksn key (List.mem_range.1 hp)
  rw [exec_walk_of_eq h, hfold, completeCommand_eq]

theorem walkStep_of_bit_clear {ksn : Ksn} {p : Nat} (key : Key) (h : (extractCounter ksn).testBit p = false) :
    walkStep ksn key p = key := by simp [walkStep, h]

/-- Where no counter bit of a stretch is set, the walk over it leaves the key. -/
theorem foldl_walkStep_of_bits_clear {ksn : Ksn} {ps : List Nat} (key : Key)
    (h : ∀ p ∈ ps, (extractCounter ksn).testBit p = false) : ps.foldl (walkStep ksn) key = key := by
  induction ps with
  | nil => rfl
  | cons p ps ih =>
    rw [List.foldl_cons, walkStep_of_bit_clear key (h p List.mem_cons_self)]
    exact ih fun q hq => h q (List.mem_cons_of_mem p hq)

/-- The walk reads the KSN's last 8 bytes only (R154). -/
theorem walkStep_congr {ksn1 ksn2 : Ksn} (h : ksn1.extractLsb' 0 64 = ksn2.extractLsb' 0 64) (key : Key) {p : Nat}
    (hp : p < 21) : walkStep ksn1 key p = walkStep ksn2 key p := by
  have hbit : ksn1.getLsbD p = ksn2.getLsbD p := by
    have := congrArg (·.getLsbD p) h
    simpa [show p < 64 by omega] using this
  rw [walkStep_eq ksn1 key hp, walkStep_eq ksn2 key hp, hbit, BitVec.extractLsb'_or, BitVec.extractLsb'_and, h,
    BitVec.extractLsb'_or, BitVec.extractLsb'_and]

/-- Settles O57: every iteration is idle, or reads the last 8 bytes. -/
theorem walkIgnoresLeadingBytes : Obligations.WalkIgnoresLeadingBytes := by
  refine ⟨fun key ksn hzero => foldl_walkStep_of_bits_clear key fun p _ => ?_, fun key ksn1 ksn2 h => ?_⟩
  · rw [extractCounter_eq_mod, hzero, Nat.zero_testBit]
  · exact List.foldl_ext _ _ _ fun key p hp => walkStep_congr h key (List.mem_range.1 hp)

/-- A counter with one bit set takes one step of the walk. -/
theorem sessionWalk_of_oneBit {ksn : Ksn} {p : Nat} (key : Key) (hp : p ≤ 20) (h : extractCounter ksn = 2 ^ p) :
    sessionWalk key ksn = nrkgp key (lastEight (buildRegister (extractKSI ksn) p)) := by
  have hsplit : List.range 21 = List.range p ++ p :: (List.range (20 - p)).map (p + 1 + ·) := by
    interval_cases p <;> rfl
  have hclear : ∀ q, q ≠ p → (extractCounter ksn).testBit q = false := by
    intro q hq
    rw [h, Nat.testBit_two_pow]
    simpa using Ne.symm hq
  rw [sessionWalk, hsplit, List.foldl_append, List.foldl_cons,
    foldl_walkStep_of_bits_clear key fun q hq => hclear q (by have := List.mem_range.1 hq; omega)]
  rw [foldl_walkStep_of_bits_clear _ fun q hq => hclear q (by obtain ⟨r, -, rfl⟩ := List.mem_map.1 hq; omega)]
  simp [walkStep, h, Nat.testBit_two_pow_self]

/-- Settles O58: BLDREG builds the register of the walk's one step, and NRKGP takes it. -/
theorem manualStepIsWalkStep : Obligations.ManualStepIsWalkStep := by
  intro s p hp hlen hksi hcounter
  refine ⟨_, _, _, exec_bldreg_of_le s hp, exec_nrkgp _, exec_walk_of_eq hlen, ?_⟩
  have hwalk := sessionWalk_of_oneBit s.k hp ((extractCounter_eq_mod s.ksn).trans hcounter)
  simp only [completeCommand_k, completeCommand_reg, hwalk, hksi, extractKSI_eq_and]

/-! ### VARIANT and NORM -/

theorem exec_variant (s : State) : exec .variant s = .next (completeCommand { s with k := applyDataVariant s.k }) := rfl

theorem byteAt_variantData : ∀ i < 16, byteAt Config.masks.variantData i = if i = 7 ∨ i = 15 then 0xFF else 0 := by
  decide

theorem byteAt_applyDataVariant (key : Key) {i : Nat} (hi : i < 16) :
    byteAt (applyDataVariant key) i = if i = 7 ∨ i = 15 then ~~~(byteAt key i) else byteAt key i := by
  rw [applyDataVariant, byteAt_xor, byteAt_variantData i hi]
  split_ifs
  · exact BitVec.xor_allOnes
  · exact BitVec.xor_zero

theorem applyDataVariant_applyDataVariant (key : Key) : applyDataVariant (applyDataVariant key) = key := by
  simp [applyDataVariant]

/-- Settles O19: the mask is `FF` in bytes 7 and 15, and masking twice cancels. -/
theorem variantCommand : Obligations.VariantCommand := by
  intro s
  exact ⟨_, exec_variant s, rfl, fun i hi => byteAt_applyDataVariant s.k hi, _, exec_variant _,
    applyDataVariant_applyDataVariant s.k⟩

theorem exec_norm (s : State) : exec .norm s = .next (completeCommand { s with tk := normalizeKey s.k }) := rfl

theorem getLsbD_normalizeKey (key : Key) {j : Nat} (hj : j < 192) :
    (normalizeKey key).getLsbD j = key.getLsbD ((j + 64) % 128) := by
  simp only [normalizeKey, leftHalf, rightHalf, BitVec.getLsbD_append, getLsbD_slice]
  by_cases h1 : j < 64
  · simp [h1, show (j + 64) % 128 = 64 + j by omega]
  · by_cases h2 : j - 64 < 64
    · simp [h1, h2, show (j + 64) % 128 = j - 64 by omega]
    · simp [h1, h2, show j - 64 - 64 < 64 by omega, show (j + 64) % 128 = 64 + (j - 64 - 64) by omega]

theorem byteAt_normalizeKey (key : Key) {i : Nat} (hi : i < 24) :
    byteAt (normalizeKey key) i = byteAt key (i % 16) := by
  apply BitVec.eq_of_getLsbD_eq
  intro j hj
  rw [getLsbD_byteAt, getLsbD_byteAt, getLsbD_normalizeKey key (by omega)]
  congr 2
  omega

/-- Settles O20: the three halves are the bytes of K taken round. -/
theorem normCommand : Obligations.NormCommand := by
  intro s
  exact ⟨_, exec_norm s, rfl, fun i hi => byteAt_normalizeKey s.k hi⟩

end Sys2Proof.Machine

/-! PROOF. ECB, ENCRYPT and ZEROIZE (spec 45, 46), and the padding of the plaintext (R180). -/

namespace Sys2Proof.Machine

/-! ### In place (R181) -/

/-- What an in-place encryption of `pt` leaves (R181, R182). -/
def encryptedState (tk : TripleKey) (pt : List Byte) (s : State) : State :=
  completeCommand
    { s with
      data := s.data.writeRange 0 (ecbEncrypt tk pt), ctLen := BitVec.ofNat 32 (ceil8 s.ptLen.toNat) }

theorem ecbInPlace_of_ok {tk : TripleKey} {s : State} {pt : List Byte}
    (h : s.data.readRange 0 s.ptLen.toNat = .ok pt) : ecbInPlace tk s = .next (encryptedState tk pt s) := by
  rw [ecbInPlace, h]
  rfl

theorem Memory.readRange_of_writtenBelow {m : Memory} {n : Nat} (h : WrittenBelow m n) :
    ∃ pt, m.readRange 0 n = .ok pt := Memory.readRange_isOk fun j _ hj => h j (by omega)

/-- The range read stops at the first unwritten byte (log entry 2). -/
theorem Memory.readRange_of_firstUnwritten {m : Memory} {n i : Nat} (hi : i < n) (hnone : m.read i = none)
    (h : WrittenBelow m i) : m.readRange 0 n = .error i := by
  cases hr : m.readRange 0 n with
  | ok bs =>
    obtain ⟨hlen, hread⟩ := Memory.readRange_ok hr
    have := hread i hi
    simp [hnone, hlen, hi] at this
  | error k =>
    obtain ⟨-, -, hk, hbelow⟩ := Memory.readRange_error hr
    have hik : ¬ i < k := fun hlt => by simpa [hnone] using hbelow i (Nat.zero_le i) hlt
    have hki : ¬ k < i := fun hlt => by simpa [hk] using h k hlt
    rw [show k = i by omega]

theorem ecbInPlace_of_firstUnwritten {tk : TripleKey} {s : State} {i : Nat} (hi : i < s.ptLen.toNat)
    (hnone : s.data.read i = none) (h : WrittenBelow s.data i) : ecbInPlace tk s = .fault (.unwrittenData i) := by
  rw [ecbInPlace, Memory.readRange_of_firstUnwritten hi hnone h]

/-! ### The commands behind their checks -/

theorem exec_ecb_of_le {s : State} (h : s.ptLen.toNat ≤ s.dataBytes.toNat) : exec .ecb s = ecbInPlace s.tk s :=
  requirePtLen_of_le _ h

theorem exec_ecb_of_gt {s : State} (h : s.dataBytes.toNat < s.ptLen.toNat) :
    exec .ecb s = .next (raiseCmdError .ptLen s) := requirePtLen_of_gt _ h

theorem exec_encrypt_of_bdkLen_ne {s : State} (h : s.bdkLen ≠ 16) :
    exec .encrypt s = .next (raiseCmdError .bdkLen s) := requireBdkLen_of_ne _ h

theorem exec_encrypt_of_ksnLen_ne {s : State} (hb : s.bdkLen = 16) (hk : s.ksnLen ≠ 10) :
    exec .encrypt s = .next (raiseCmdError .ksnLen s) :=
  (requireBdkLen_of_eq _ hb).trans (requireKsnLen_of_ne _ hk)

theorem exec_encrypt_of_lengths {s : State} (hb : s.bdkLen = 16) (hk : s.ksnLen = 10) :
    exec .encrypt s = requirePtLen s (ecbInPlace (transactionKey s.bdk s.ksn) (clearKeys s)) :=
  (requireBdkLen_of_eq _ hb).trans (requireKsnLen_of_eq _ hk)

theorem exec_encrypt_of_gt {s : State} (hb : s.bdkLen = 16) (hk : s.ksnLen = 10)
    (hp : s.dataBytes.toNat < s.ptLen.toNat) : exec .encrypt s = .next (raiseCmdError .ptLen s) :=
  (exec_encrypt_of_lengths hb hk).trans (requirePtLen_of_gt _ hp)

theorem exec_encrypt_of_le {s : State} (hb : s.bdkLen = 16) (hk : s.ksnLen = 10)
    (hp : s.ptLen.toNat ≤ s.dataBytes.toNat) :
    exec .encrypt s = ecbInPlace (transactionKey s.bdk s.ksn) (clearKeys s) :=
  (exec_encrypt_of_lengths hb hk).trans (requirePtLen_of_le _ hp)

/-- Settles O21: a written plaintext is read, and DATA then holds its ciphertext. -/
theorem ecbCommand : Obligations.EcbCommand := by
  intro s
  refine ⟨fun hp hw => ?_, exec_ecb_of_gt⟩
  obtain ⟨pt, hpt⟩ := Memory.readRange_of_writtenBelow hw
  exact ⟨_, (exec_ecb_of_le hp).trans (ecbInPlace_of_ok hpt), encryptedData_writeRange s s.tk pt hpt⟩

/-- Settles O22: the plaintext is read from index 0 up. -/
theorem unwrittenPlaintextStops : Obligations.UnwrittenPlaintextStops := by
  intro s i hp hi hnone hw
  refine ⟨(exec_ecb_of_le hp).trans (ecbInPlace_of_firstUnwritten hi hnone hw), fun hb hk => ?_⟩
  exact (exec_encrypt_of_le hb hk hp).trans (ecbInPlace_of_firstUnwritten (s := clearKeys s) hi hnone hw)

/-- Settles O23: clearing the keys leaves DATA and PT_LEN for the encryption. -/
theorem encryptCommand : Obligations.EncryptCommand := by
  intro s
  refine ⟨fun hb hk hp hw => ?_, exec_encrypt_of_bdkLen_ne, exec_encrypt_of_ksnLen_ne, exec_encrypt_of_gt⟩
  obtain ⟨pt, hpt⟩ := Memory.readRange_of_writtenBelow hw
  exact ⟨_, (exec_encrypt_of_le hb hk hp).trans (ecbInPlace_of_ok (s := clearKeys s) hpt),
    encryptedData_writeRange s (transactionKey s.bdk s.ksn) pt hpt⟩

/-- Settles O24: DATA becomes a run of zero bytes. -/
theorem zeroizeCommand : Obligations.ZeroizeCommand := by
  intro s
  refine ⟨Memory.zerosFrom 0 s.dataBytes.toNat, rfl, fun a ha => ?_⟩
  rw [Memory.read_zerosFrom, if_pos (by omega)]

/-! ### ENCRYPT is the sequence of the five commands (R182) -/

/-- The state the first four commands leave before ECB. -/
def beforeEcb (s : State) : State :=
  completeCommand
    { s with
      k := applyDataVariant (sessionWalk (deriveIpek s.bdk s.ksn) s.ksn), tk := transactionKey s.bdk s.ksn
      bdk := 0, bdkLen := 0 }

/-- Settles O60: each of the five commands finds the registers the one before left, and STATUS completes alike. -/
theorem encryptEqualsSequence : Obligations.EncryptEqualsSequence := by
  intro s t h herr
  rcases execEncrypt_next h with ⟨-, rfl⟩ | ⟨-, -, rfl⟩ | ⟨-, -, -, rfl⟩ | ⟨hb, hk, hp, hecb⟩
  · simp at herr
  · simp at herr
  · simp at herr
  · obtain ⟨pt, hpt, rfl⟩ := ecbInPlace_next hecb
    refine ⟨_, _, _, beforeEcb s, _, exec_ipek_of_eq hb hk, exec_walk_of_eq hk, exec_variant _, ?norm,
      (exec_ecb_of_le (s := beforeEcb s) hp).trans (ecbInPlace_of_ok hpt), ?state⟩
    case norm => simp [exec_norm, beforeEcb, transactionKey, completeCommand]
    case state => simp [encryptedState, beforeEcb, completeCommand, clearKeys]

/-! ### The padding (R180) -/

theorem ceil8_add_of_le {n z : Nat} (h : n + z ≤ ceil8 n) : ceil8 (n + z) = ceil8 n := by
  unfold ceil8 at *
  omega

/-- Zero bytes appended below the padded length are the padding's own. -/
theorem padPlaintext_append_zeros {pt : List Byte} {z : Nat} (h : pt.length + z ≤ ceil8 pt.length) :
    padPlaintext (pt ++ List.replicate z 0) = padPlaintext pt := by
  simp only [padPlaintext, List.length_append, List.length_replicate, ceil8_add_of_le h, List.append_assoc,
    List.append_cancel_left_eq, List.replicate_append_replicate]
  congr 1
  omega

/-- Settles O59: both plaintexts pad to the same bytes. -/
theorem paddingIsZeroBytes : Obligations.PaddingIsZeroBytes := by
  intro tk pt
  refine ⟨length_ecbEncrypt tk pt, fun z hz => ?_⟩
  have hz : pt.length + z ≤ ceil8 pt.length := hz
  rw [ecbEncrypt, padPlaintext_append_zeros hz, List.length_append, List.length_replicate, ceil8_add_of_le hz,
    ecbEncrypt]

end Sys2Proof.Machine

/-! PROOF. DES: decryption inverts encryption, and parity bits do not matter (R100 to R108). -/

namespace Sys2Proof.Machine

/-! ### Permutations by a table (R101) -/

theorem getMsbD_permute_getD {w m : Nat} {t : List Nat} (hlen : t.length = m) (x : BitVec w) {j : Nat} (hj : j < m)
    (ht : 1 ≤ t.getD j 0 ∧ t.getD j 0 ≤ w) : (permute m t x).getMsbD j = x.getMsbD (t.getD j 0 - 1) := by
  subst hlen
  rw [List.getD_eq_getElem t 0 hj] at ht ⊢
  exact getMsbD_permute t x j hj ht

/-- Table `t` leads each bit to the place from which table `u` fetches it back. -/
def TablesCancel (n : Nat) (u t : List Nat) : Prop :=
  u.length = n ∧ t.length = n ∧
    ∀ j < n, (1 ≤ u.getD j 0 ∧ u.getD j 0 ≤ n) ∧ t.getD (u.getD j 0 - 1) 0 = j + 1

theorem permute_permute_of_cancel {n : Nat} {u t : List Nat} (h : TablesCancel n u t) (x : BitVec n) :
    permute n u (permute n t x) = x := by
  obtain ⟨hu, ht, hcancel⟩ := h
  apply BitVec.eq_of_getMsbD_eq
  intro j hj
  obtain ⟨hrange, hback⟩ := hcancel j hj
  rw [getMsbD_permute_getD hu _ hj hrange, getMsbD_permute_getD ht x (by omega) (by omega), hback,
    Nat.add_sub_cancel]

theorem permute_final_initial (x : Block) : permute 64 finalPermutation (permute 64 initialPermutation x) = x :=
  permute_permute_of_cancel (by unfold TablesCancel; decide) x

theorem permute_initial_final (x : Block) : permute 64 initialPermutation (permute 64 finalPermutation x) = x :=
  permute_permute_of_cancel (by unfold TablesCancel; decide) x

/-! ### The Feistel rounds (R104, R105) -/

theorem high_append (a b : BitVec 32) : (a ++ b).extractLsb' 32 32 = a := BitVec.extractLsb'_append_eq_left

theorem low_append (a b : BitVec 32) : (a ++ b).extractLsb' 0 32 = b := BitVec.extractLsb'_append_eq_right

theorem high_append_low (y : Block) : y.extractLsb' 32 32 ++ y.extractLsb' 0 32 = y := by
  apply BitVec.eq_of_getLsbD_eq
  intro j hj
  rw [BitVec.getLsbD_append]
  by_cases h : j < 32
  · simp [h]
  · simp [h, show j - 32 < 32 by omega, show 32 + (j - 32) = j by omega]

/-- One more round after the others, its halves taken from their swapped output. -/
theorem rounds_concat (ks : List (BitVec 48)) (ki : BitVec 48) (l r : BitVec 32) :
    rounds (ks ++ [ki]) l r =
      ((rounds ks l r).extractLsb' 0 32 ^^^ roundFunction ((rounds ks l r).extractLsb' 32 32) ki) ++
        (rounds ks l r).extractLsb' 32 32 := by
  induction ks generalizing l r with
  | nil => simp only [List.nil_append, rounds, high_append, low_append]
  | cons k ks ih => exact ih r (l ^^^ roundFunction r k)

/-- The rounds under the reversed subkeys undo the rounds: each last round is its own inverse on the swapped halves. -/
theorem rounds_reverse (ks : List (BitVec 48)) (l r : BitVec 32) :
    rounds ks.reverse ((rounds ks l r).extractLsb' 32 32) ((rounds ks l r).extractLsb' 0 32) = l ++ r := by
  induction ks generalizing l r with
  | nil => simp only [List.reverse_nil, rounds, high_append, low_append]
  | cons k ks ih =>
    rw [List.reverse_cons, rounds_concat, rounds, ih, high_append, low_append, BitVec.xor_assoc, BitVec.xor_self,
      BitVec.xor_zero]

theorem desWith_reverse (ks : List (BitVec 48)) (x : Block) : desWith ks.reverse (desWith ks x) = x := by
  rw [desWith, desWith, permute_initial_final, rounds_reverse, high_append_low, permute_final_initial]

theorem desD_desE (k x : Block) : desD k (desE k x) = x := desWith_reverse (subkeys k) x

/-- Settles O53: the decryption runs the same rounds under the reversed subkeys. -/
theorem desDecryptInvertsEncrypt : Obligations.DesDecryptInvertsEncrypt := desD_desE

/-! ### The parity bits (R106) -/

/-- PC-1 reads no bit that the parity mask clears (R102). -/
theorem pc1_reads_no_parity_bit :
    ∀ j < 56, (1 ≤ pc1.getD j 0 ∧ pc1.getD j 0 ≤ 64) ∧ (0xFEFEFEFEFEFEFEFE#64).getMsbD (pc1.getD j 0 - 1) = true := by
  decide

theorem permute_pc1_and_mask (k : Block) : permute 56 pc1 (k &&& 0xFEFEFEFEFEFEFEFE#64) = permute 56 pc1 k := by
  apply BitVec.eq_of_getMsbD_eq
  intro j hj
  obtain ⟨hrange, hmask⟩ := pc1_reads_no_parity_bit j hj
  have hlen : pc1.length = 56 := by decide
  rw [getMsbD_permute_getD hlen _ hj hrange, getMsbD_permute_getD hlen _ hj hrange, BitVec.getMsbD_and, hmask,
    Bool.and_true]

theorem subkeys_congr {k k' : Block} (h : k &&& 0xFEFEFEFEFEFEFEFE#64 = k' &&& 0xFEFEFEFEFEFEFEFE#64) :
    subkeys k = subkeys k' := by
  rw [subkeys, ← permute_pc1_and_mask k, h, permute_pc1_and_mask k', subkeys]

/-- Settles O54: a key reaches DES through its subkeys, which PC-1 makes of the other bits. -/
theorem parityBitsIgnored : Obligations.ParityBitsIgnored := by
  intro k k' x h
  have hkeys := subkeys_congr h
  exact ⟨by rw [desE, desE, hkeys], by rw [desD, desD, hkeys]⟩

/-- Settles O55: the decryption undoes the first encryption. -/
theorem equalThirdsReduceToSingleDes : Obligations.EqualThirdsReduceToSingleDes := by
  intro tk x h
  have hinner : desD (slice 64 tk 8) (desE (slice 64 tk 0) x) = x := by
    have hkeys : subkeys (slice 64 tk 0) = subkeys (slice 64 tk 8) := subkeys_congr h
    rw [desD, ← hkeys]
    exact desD_desE (slice 64 tk 0) x
  rw [tdesE, hinner]
  rfl

/-! ### Known answers (95 section 1) -/

theorem desE_kat1 : desE 0x133457799BBCDFF1 0x0123456789ABCDEF = 0x85E813540F0AB405 := by decide +kernel

theorem desE_kat3 : desE 0x0101010101010101 0x95F8A5E5DD31D900 = 0x8000000000000000 := by decide +kernel

theorem desE_kat5 : desE 0x8001010101010101 0x0000000000000000 = 0x95A8D72813DAA94D := by decide +kernel

theorem tdesE_kat7 : tdesE 0 0 = 0x8CA64DE9C1B123A7 := by decide +kernel

/-- Settles O52, by evaluating the model. -/
theorem desKnownAnswers : Obligations.DesKnownAnswers := ⟨desE_kat1, desE_kat3, desE_kat5, tdesE_kat7⟩

end Sys2Proof.Machine

/-! PROOF. Host writes, class by class (R22, R25 to R28, R57). -/

namespace Sys2Proof.Machine

/-! ### Where a write is dropped (R57) -/

/-- An operand byte lies above the scalar registers, and so does a legal access that covers one. -/
theorem LegalAccess.le_of_operand {size o n j : Nat} (h : LegalAccess size o n) (hj : j < n)
    (hop : OperandOffset size (o + j)) : 0x0040 ≤ o := by
  obtain ⟨-, halign, hnarrow, -⟩ := h
  by_contra hlt
  have hn := hnarrow (by omega)
  subst hn
  unfold OperandOffset at hop
  omega

theorem droppedWhilePending_of_operand {s : State} {o n j : Nat} (hj : j < n)
    (hop : OperandOffset s.dataBytes.toNat (o + j)) : droppedWhilePending s o n = true := by
  have hany : (covered s.dataBytes.toNat o n).any Loc.isOperand = true :=
    List.any_eq_true.2 ⟨_, List.mem_map.2 ⟨j, List.mem_range.2 hj, rfl⟩, (isOperand_locate_iff _ _).2 hop⟩
  simp [droppedWhilePending, hany]

/-! ### `memWrite`, an equation for each class -/

theorem memWrite_ctrl (n : Nat) (v : Word) (s : State) :
    memWrite 0x0008 n v s = { s with ctrl := v &&& 0x00000001 } := rfl

theorem memWrite_readOnly {o : Nat} (h : o = 0x0018 ∨ o = 0x001C ∨ o = 0x0020) (n : Nat) (v : Word) (s : State) :
    memWrite o n v s = s := by
  rcases h with rfl | rfl | rfl <;> rfl

theorem memWrite_dropped {o n : Nat} {s : State} (v : Word)
    (ho : o = 0x0000 ∨ o = 0x000C ∨ o = 0x0010 ∨ o = 0x0014 ∨ 0x0040 ≤ o) (hp : s.pending ≠ none)
    (hd : droppedWhilePending s o n = true) : memWrite o n v s = dropWrite s := by
  have hp : s.pending.isSome = true := Option.isSome_iff_ne_none.2 hp
  rw [memWrite, if_neg (by omega), if_neg (by omega), if_neg (by omega), if_pos ⟨hp, hd⟩]

section idle
variable {s : State} (h : s.pending = none) (n : Nat) (v : Word)
include h

theorem memWrite_cmd : memWrite 0x0000 n v s = issueCommand v s := by simp [memWrite, h]

theorem memWrite_bdkLen : memWrite 0x000C n v s = { s with bdkLen := v } := by simp [memWrite, h]

theorem memWrite_ksnLen : memWrite 0x0010 n v s = { s with ksnLen := v } := by simp [memWrite, h]

theorem memWrite_ptLen : memWrite 0x0014 n v s = { s with ptLen := v } := by simp [memWrite, h]

theorem memWrite_array {o : Nat} (ho : 0x0040 ≤ o) : memWrite o n v s = writeBytes o n v s := by
  have hne : ∀ {a}, a < 0x0040 → ¬ o = a := by omega
  simp [memWrite, h, hne]

end idle

/-- A write of no operand byte above the scalar registers changes nothing, pending or not. -/
theorem memWrite_of_no_operand {o n : Nat} {s : State} (v : Word) (ho : 0x0040 ≤ o)
    (h : ∀ j, j < n → ¬ OperandOffset s.dataBytes.toNat (o + j)) : memWrite o n v s = s := by
  have hlanes : ∀ j, j < n → (locate s.dataBytes.toNat (o + j)).isOperand = false := fun j hj =>
    Bool.eq_false_iff.2 fun hop => h j hj ((isOperand_locate_iff _ _).1 hop)
  have hbytes : writeBytes o n v s = s := writeBytes_of_no_operand v hlanes
  have hnd : droppedWhilePending s o n = false := by
    have hany : (covered s.dataBytes.toNat o n).any Loc.isOperand = false := by
      simpa [covered, List.any_eq_false] using hlanes
    simp only [droppedWhilePending, hany, Bool.or_false, Bool.or_eq_false_iff, beq_eq_false_iff_ne, ne_eq]
    omega
  have hne : ∀ {a}, a < 0x0040 → ¬ o = a := by omega
  simp [memWrite, hnd, hbytes, hne]

/-! ### The scalar registers -/

/-- A 32-bit write at a scalar register. -/
theorem hostAccess_write_scalar {o : Nat} (ho : o ≤ 0x0020) (h4 : o % 4 = 0) (v : Word) (s : State) :
    hostAccess ⟨o, 4, .write v⟩ s = .next (memWrite o 4 v s) :=
  hostAccess_write v (legalAccess_scalar _ ho h4)

theorem hostAccess_write_cmd_idle {s : State} (h : s.pending = none) (w : Word) :
    hostAccess ⟨0x0000, 4, .write w⟩ s = .next (issueCommand w s) := by
  rw [hostAccess_write_scalar (by decide) (by decide), memWrite_cmd h]

theorem hostAccess_write_cmd_pending {s : State} (h : s.pending ≠ none) (w : Word) :
    hostAccess ⟨0x0000, 4, .write w⟩ s = .next (dropWrite s) := by
  rw [hostAccess_write_scalar (by decide) (by decide), memWrite_dropped w (.inl rfl) h rfl]

/-- Settles O33: the value is masked to its bit 0. -/
theorem ctrlWriteKeepsOnlyIe : Obligations.CtrlWriteKeepsOnlyIe := by
  intro s v
  refine ⟨_, hostAccess_write_scalar (by decide) (by decide) v s, rfl, ?_, fun j hj => ?_⟩
  · simp [memWrite_ctrl]
  · have : (1#32).getLsbD j = false := by
      rw [BitVec.getLsbD_one]
      simp
      omega
    simp [memWrite_ctrl, BitVec.getLsbD_and, this, -BitVec.getLsbD_eq_getElem]

/-- Settles O34: each write is the one of its offset's class. -/
theorem lengthRegisterWrites : Obligations.LengthRegisterWrites := by
  intro s v h
  refine ⟨?_, ?_, ?_⟩
  · rw [hostAccess_write_scalar (by decide) (by decide), memWrite_bdkLen h]
  · rw [hostAccess_write_scalar (by decide) (by decide), memWrite_ksnLen h]
  · rw [hostAccess_write_scalar (by decide) (by decide), memWrite_ptLen h]

/-- Settles O31: a covered operand byte puts the access above the scalar registers, where it is dropped. -/
theorem pendingDropsOperandWrites : Obligations.PendingDropsOperandWrites := by
  intro s o n v hp hlegal hwhere
  rw [hostAccess_write v hlegal]
  obtain ⟨hplace, hdropped⟩ : (o = 0x0000 ∨ o = 0x000C ∨ o = 0x0010 ∨ o = 0x0014 ∨ 0x0040 ≤ o) ∧
      droppedWhilePending s o n = true := by
    rcases hwhere with rfl | rfl | rfl | rfl | ⟨j, hj, hop⟩
    · exact ⟨by omega, rfl⟩
    · exact ⟨by omega, rfl⟩
    · exact ⟨by omega, rfl⟩
    · exact ⟨by omega, rfl⟩
    · have hlow := hlegal.le_of_operand hj hop
      exact ⟨by omega, droppedWhilePending_of_operand hj hop⟩
  rw [memWrite_dropped v hplace hp hdropped]
  rfl

/-- Settles O43: a scalar register of the three is passed over, and elsewhere no byte is an operand. -/
theorem readOnlyWritesIgnored : Obligations.ReadOnlyWritesIgnored := by
  intro s o n v hlegal hwhere
  rw [hostAccess_write v hlegal]
  by_cases hscalar : o = 0x0018 ∨ o = 0x001C ∨ o = 0x0020
  · rw [memWrite_readOnly hscalar]
  · obtain ⟨ho, hno⟩ : 0x0040 ≤ o ∧ ∀ j, j < n → ¬ OperandOffset s.dataBytes.toNat (o + j) := by tauto
    rw [memWrite_of_no_operand v ho hno]

/-! ### What no host access changes -/

/-- `t` has the registers of `s` that the host cannot write, and its pending command (R21). -/
def KeepsHostFrame (s t : State) : Prop :=
  t.ctLen = s.ctLen ∧ t.ctr = s.ctr ∧ t.dataBytes = s.dataBytes ∧ t.tk = s.tk ∧ t.ksi = s.ksi ∧ t.reg = s.reg ∧
    (s.pending ≠ none → t.pending = s.pending)

theorem memWrite_keepsHostFrame (o n : Nat) (v : Word) (s : State) : KeepsHostFrame s (memWrite o n v s) := by
  refine memWrite_by_class (P := KeepsHostFrame s) ?_ ?_ ?_ ?_ (fun _ hidle => ?issued) ?_ ?_ ?_ ?bytes
  case issued => simp [KeepsHostFrame, hidle]
  case bytes =>
    rw [writeBytes_eq]
    simp [KeepsHostFrame]
  all_goals simp [KeepsHostFrame]

theorem hostAccess_ne_refused (a : Access) (s : State) (r : Refusal) : hostAccess a s ≠ .refused r := by
  rcases hostAccess_cases a s with ⟨-, h⟩ | ⟨-, -, h⟩ | ⟨v, -, -, h⟩ <;> rw [h]
  · simp
  · unfold memRead
    split <;> simp
  · simp

/-- Settles O44: a read changes none of the block's registers, and a write has its frame. -/
theorem hostCannotWriteEngineRegisters : Obligations.HostCannotWriteEngineRegisters := by
  intro s a
  refine ⟨hostAccess_ne_refused a s, fun t h => ?_⟩
  rcases hostAccess_cases a s with ⟨-, heq⟩ | ⟨-, -, heq⟩ | ⟨v, -, -, heq⟩ <;> rw [heq] at h
  · cases h
  · rw [(memRead_next h).2]
    simp
  · obtain rfl := Host.Outcome.next.inj h
    exact memWrite_keepsHostFrame ..

/-! ### What an array write leaves in each operand byte (R54, R57) -/

/-- The operand byte at a location; none where a DATA byte has no value, or where no operand byte lies. -/
def operandByte (s : State) : Loc → Option Byte
  | .bdk i => some (byteAt s.bdk i)
  | .ksn i => some (byteAt s.ksn i)
  | .k i => some (byteAt s.k i)
  | .data i => s.data.read i
  | .scalar _ _ => none
  | .ksi _ => none
  | .reg _ => none
  | .pad => none
  | .unassigned => none

/-- Byte `j` of a value, as the statements write it (R54). -/
theorem beByte_eq_shift (n : Nat) (v : Word) (j : Nat) : beByte n v j = (v >>> (8 * (n - 1 - j))).setWidth 8 := by
  apply BitVec.eq_of_getLsbD_eq
  intro k hk
  rw [getLsbD_beByte, BitVec.getLsbD_setWidth, BitVec.getLsbD_ushiftRight]

/-- The locations that exist: an array byte's index is within its register. -/
def Loc.inBounds : Loc → Prop
  | .bdk i => i < 16
  | .ksn i => i < 10
  | .k i => i < 16
  | _ => True

theorem inBounds_locate (size o : Nat) : (locate size o).inBounds := by
  have r := mapRow_locate size o
  generalize locate size o = l at r
  cases r <;> simp only [Loc.inBounds] <;> omega

/-- A byte write sets the operand byte of its location and no other. -/
theorem operandByte_writeByte (s : State) {l l' : Loc} (b : Byte) (hop : l.isOperand = true) (hl : l.inBounds)
    (hl' : l'.inBounds) : operandByte (writeByte s l b) l' = if l' = l then some b else operandByte s l' := by
  cases l with
  | bdk i | ksn i | k i =>
    cases l' <;> simp only [operandByte, writeByte, reduceCtorEq, if_false, Loc.bdk.injEq, Loc.ksn.injEq,
      Loc.k.injEq, Loc.inBounds] at *
    rw [byteAt_setByte _ _ _ _ (by omega) (by omega), apply_ite some]
  | data i =>
    cases l' <;> simp only [operandByte, writeByte, reduceCtorEq, if_false, Loc.data.injEq, Memory.read_write]
  | _ => cases hop

theorem operandByte_writeByte_of_ne (s : State) {l l' : Loc} (b : Byte) (hl : l.inBounds) (hl' : l'.inBounds)
    (h : l' ≠ l) : operandByte (writeByte s l b) l' = operandByte s l' := by
  cases hop : l.isOperand with
  | true => rw [operandByte_writeByte s b hop hl hl', if_neg h]
  | false => rw [writeByte_of_not_operand b hop]

/-- Two offsets of one operand byte are equal. -/
theorem locate_operand_injective {size o o' : Nat} (hop : (locate size o).isOperand = true)
    (h : locate size o' = locate size o) : o' = o := by
  obtain ⟨hbdk, hksn, hk, -, -, hdata⟩ := locate_inj (size := size) (o := o)
  obtain ⟨hbdk', hksn', hk', -, -, hdata'⟩ := locate_inj (size := size) (o := o')
  cases hl : locate size o with
  | bdk i => rw [(hbdk i hl).1, (hbdk' i (h.trans hl)).1]
  | ksn i => rw [(hksn i hl).1, (hksn' i (h.trans hl)).1]
  | k i => rw [(hk i hl).1, (hk' i (h.trans hl)).1]
  | data i => rw [(hdata i hl).1, (hdata' i (h.trans hl)).1]
  | _ => simp [hl, Loc.isOperand] at hop

section lanes
variable (s : State) (o n : Nat) (v : Word)

theorem operandByte_writeBytes_of_not_covered {l : Loc} (hl : l.inBounds)
    (h : ∀ j, j < n → l ≠ locate s.dataBytes.toNat (o + j)) : operandByte (writeBytes o n v s) l = operandByte s l := by
  have hlanes : ∀ m ≤ n, operandByte ((List.range m).foldl
      (fun t j => writeByte t (locate s.dataBytes.toNat (o + j)) (beByte n v j)) s) l = operandByte s l := by
    intro m
    induction m with
    | zero => exact fun _ => rfl
    | succ m ih =>
      intro hm
      rw [writeBytes_lanes_succ, operandByte_writeByte_of_ne _ _ (inBounds_locate _ _) hl (h m hm), ih (by omega)]
  exact hlanes n le_rfl

theorem operandByte_writeBytes_of_covered {j : Nat} (hj : j < n)
    (hop : (locate s.dataBytes.toNat (o + j)).isOperand = true) :
    operandByte (writeBytes o n v s) (locate s.dataBytes.toNat (o + j)) = some (beByte n v j) := by
  have hlanes : ∀ m ≤ n, j < m → operandByte ((List.range m).foldl
      (fun t j => writeByte t (locate s.dataBytes.toNat (o + j)) (beByte n v j)) s)
        (locate s.dataBytes.toNat (o + j)) = some (beByte n v j) := by
    intro m
    induction m with
    | zero => exact fun _ h => absurd h (by omega)
    | succ m ih =>
      intro hm hjm
      rw [writeBytes_lanes_succ]
      by_cases hlast : j = m
      · subst hlast
        rw [operandByte_writeByte _ _ hop (inBounds_locate _ _) (inBounds_locate _ _), if_pos rfl]
      · have hne : locate s.dataBytes.toNat (o + j) ≠ locate s.dataBytes.toNat (o + m) := by
          intro heq
          have := locate_operand_injective (heq ▸ hop) heq
          omega
        rw [operandByte_writeByte_of_ne _ _ (inBounds_locate _ _) (inBounds_locate _ _) hne, ih (by omega) (by omega)]
  exact hlanes n le_rfl hj

/-- Each operand byte after an array write, by its offset `p`. -/
theorem operandByte_writeBytes {l : Loc} {p : Nat} (hl : locate s.dataBytes.toNat p = l) (hop : l.isOperand = true) :
    operandByte (writeBytes o n v s) l =
      if InRange o n p then some ((v >>> (8 * (o + n - 1 - p))).setWidth 8) else operandByte s l := by
  split_ifs with hin
  · obtain ⟨j, rfl⟩ : ∃ j, p = o + j := ⟨p - o, by omega⟩
    have hbyte : beByte n v j = (v >>> (8 * (o + n - 1 - (o + j)))).setWidth 8 := by
      rw [beByte_eq_shift, show o + n - 1 - (o + j) = n - 1 - j by omega]
    rw [← hl, operandByte_writeBytes_of_covered s o n v (by omega) (hl ▸ hop), hbyte]
  · refine operandByte_writeBytes_of_not_covered s o n v (hl ▸ inBounds_locate _ _) fun j hj heq => hin ?_
    have := locate_operand_injective (hl.symm ▸ hop) (heq.symm.trans hl.symm)
    omega

/-- The same of a byte that always has a value. -/
theorem registerByte_writeBytes {l : Loc} {p : Nat} {a b : Byte} (hl : locate s.dataBytes.toNat p = l)
    (hop : l.isOperand = true) (ha : operandByte (writeBytes o n v s) l = some a) (hb : operandByte s l = some b) :
    a = if InRange o n p then (v >>> (8 * (o + n - 1 - p))).setWidth 8 else b := by
  have hbyte := operandByte_writeBytes s o n v hl hop
  rw [ha, hb, ← apply_ite some] at hbyte
  exact Option.some.inj hbyte

end lanes

/-- Settles O35: lane by lane, each operand byte is the written one or as before. -/
theorem arrayWriteSetsBytes : Obligations.ArrayWriteSetsBytes := by
  intro s o n v hidle hlegal ho
  refine ⟨writeBytes o n v s, ?_, writeBytes_eq o n v s,
    fun i hi => registerByte_writeBytes s o n v (locate_bdk hi) rfl rfl rfl,
    fun i hi => registerByte_writeBytes s o n v (locate_ksn hi) rfl rfl rfl,
    fun i hi => registerByte_writeBytes s o n v (locate_k hi) rfl rfl rfl, fun i => ?_⟩
  · rw [hostAccess_write v hlegal, memWrite_array hidle n v ho]
  · by_cases hi : i < s.dataBytes.toNat
    · exact operandByte_writeBytes s o n v (locate_data hi) rfl
    · have hout : ∀ j, j < n → Loc.data i ≠ locate s.dataBytes.toNat (o + j) := fun j _ heq => by
        obtain ⟨-, -, -, -, -, hdata⟩ := locate_inj (size := s.dataBytes.toNat) (o := o + j)
        exact hi (hdata i heq.symm).2
      have hnot : ¬ InRange o n (0x1000 + i) := by
        intro hin
        obtain ⟨-, -, -, hassigned⟩ := hlegal
        exact hassigned (0x1000 + i - o) (by omega) (by unfold UnassignedOffset; omega)
      rw [if_neg hnot]
      exact operandByte_writeBytes_of_not_covered s o n v (l := .data i) trivial hout

end Sys2Proof.Machine

/-! PROOF. Host reads (R54, R56, R58, R59, R61) and bus errors. -/

namespace Sys2Proof.Machine

/-! ### Bus errors (R58) -/

theorem hostAccess_of_not_legal {s : State} {o n : Nat} (op : AccessOp) (h : ¬ LegalAccess s.dataBytes.toNat o n) :
    hostAccess ⟨o, n, op⟩ s = .fault (.busError o n) := by
  have hbus : busError s.dataBytes.toNat o n = true := by
    rw [← Bool.not_eq_false, busError_eq_false_iff]
    exact h
  simp [hostAccess, hbus]

theorem memRead_ne_busError (o n : Nat) (s : State) (o' n' : Nat) : memRead o n s ≠ .fault (.busError o' n') := by
  unfold memRead
  split <;> simp

theorem hostAccess_eq_busError_iff (s : State) (o n : Nat) (op : AccessOp) :
    hostAccess ⟨o, n, op⟩ s = .fault (.busError o n) ↔ ¬ LegalAccess s.dataBytes.toNat o n := by
  refine ⟨fun h hlegal => ?_, hostAccess_of_not_legal op⟩
  cases op with
  | read =>
    rw [hostAccess_read hlegal] at h
    exact memRead_ne_busError _ _ _ _ _ h
  | write v =>
    rw [hostAccess_write v hlegal] at h
    cases h

/-- Settles O41: the four causes are what a legal access denies. -/
theorem busErrorsFault : Obligations.BusErrorsFault := by
  intro s o n op
  rw [hostAccess_eq_busError_iff, LegalAccess]
  simp only [not_and_or, not_forall, not_not, exists_prop, ne_eq]

/-- A read that answers is legal, all its bytes have values, and it leaves what `memRead` leaves. -/
theorem hostAccess_read_next {s t : State} {o n : Nat} (h : hostAccess ⟨o, n, .read⟩ s = .next t) :
    LegalAccess s.dataBytes.toNat o n ∧ firstUnwritten (lanesOf s o n) = none ∧
      t = { s with
        readData := readValue s o n
        draws := if anyFree (lanesOf s o n) then s.draws + 1 else s.draws } := by
  have hlegal : LegalAccess s.dataBytes.toNat o n := by
    by_contra hill
    rw [hostAccess_of_not_legal _ hill] at h
    cases h
  rw [hostAccess_read hlegal] at h
  exact ⟨hlegal, memRead_next h⟩

/-- An array byte alone is a legal access where it is assigned. -/
theorem legalAccess_byte {size o : Nat} (ho : 0x0040 ≤ o) (h : ¬ UnassignedOffset size o) : LegalAccess size o 1 :=
  ⟨.inl rfl, Nat.mod_one o, by omega, fun j hj => by rwa [show o + j = o by omega]⟩

theorem legalAccess_byte_of_locate {size o : Nat} {l : Loc} (ho : 0x0040 ≤ o) (hl : locate size o = l)
    (h : l ≠ .unassigned) : LegalAccess size o 1 :=
  legalAccess_byte ho fun hu => h (hl.symm.trans ((locate_eq_unassigned_iff size o).2 hu))

/-! ### Reads whose bytes are all known -/

theorem lanesOf_of_known {s : State} {o n : Nat} {f : Nat → Byte}
    (h : ∀ j, j < n → laneAt s (locate s.dataBytes.toNat (o + j)) = .known (f j)) :
    lanesOf s o n = ((List.range n).map f).map .known := by
  rw [lanesOf, covered, List.map_map, List.map_map]
  exact List.map_congr_left fun j hj => h j (List.mem_range.1 hj)

theorem hostAccess_read_of_known {s : State} {o n : Nat} {f : Nat → Byte} (hlegal : LegalAccess s.dataBytes.toNat o n)
    (h : ∀ j, j < n → laneAt s (locate s.dataBytes.toNat (o + j)) = .known (f j)) :
    hostAccess ⟨o, n, .read⟩ s = .next { s with readData := BitVec.ofNat 32 (be ((List.range n).map f)) } := by
  rw [hostAccess_read hlegal, memRead_of_known (lanesOf_of_known h)]

/-- An 8-bit read of a known byte returns it. -/
theorem hostAccess_read_byte {s : State} {o : Nat} {b : Byte} (hlegal : LegalAccess s.dataBytes.toNat o 1)
    (h : laneAt s (locate s.dataBytes.toNat o) = .known b) :
    hostAccess ⟨o, 1, .read⟩ s = .next { s with readData := b.setWidth 32 } := by
  have hlane : ∀ j, j < 1 → laneAt s (locate s.dataBytes.toNat (o + j)) = .known b := by
    intro j hj
    rwa [show o + j = o by omega]
  have hbyte : BitVec.ofNat 32 (be ((List.range 1).map fun _ => b)) = b.setWidth 32 := by
    apply BitVec.eq_of_toNat_eq
    simp [be]
  rw [hostAccess_read_of_known hlegal hlane, hbyte]

theorem hostAccess_read_located {s : State} {o : Nat} {l : Loc} {b : Byte} (ho : 0x0040 ≤ o)
    (hl : locate s.dataBytes.toNat o = l) (hassigned : l ≠ .unassigned) (h : laneAt s l = .known b) :
    hostAccess ⟨o, 1, .read⟩ s = .next { s with readData := b.setWidth 32 } :=
  hostAccess_read_byte (legalAccess_byte_of_locate ho hl hassigned) (hl ▸ h)

theorem be_replicate_zero (n : Nat) : be (List.replicate n 0) = 0 := by
  induction n with
  | zero => rfl
  | succ n ih => exact ih

/-- A read of bytes that all read 0 returns 0. -/
theorem hostAccess_read_zero {s : State} {o n : Nat} (hlegal : LegalAccess s.dataBytes.toNat o n)
    (h : ∀ j, j < n → laneAt s (locate s.dataBytes.toNat (o + j)) = .known 0) :
    hostAccess ⟨o, n, .read⟩ s = .next { s with readData := 0 } := by
  rw [hostAccess_read_of_known hlegal h, List.map_const', List.length_range, be_replicate_zero]
  rfl

/-! ### Scalar registers -/

theorem locate_scalar_lane {o j : Nat} (size : Nat) (ho : o ≤ 0x0020) (h4 : o % 4 = 0) (hj : j < 4) :
    locate size (o + j) = .scalar (scalarAt (o / 4)) j := by
  rw [locate_scalar (by omega), show (o + j) / 4 = o / 4 by omega, show (o + j) % 4 = j by omega]

theorem laneAt_scalar_of_exact {s : State} {r : Scalar} (h : r.alwaysExact = true ∨ s.pending = none) (j : Nat) :
    laneAt s (.scalar r j) = .known (byteAt (scalarValue s r) j) := by
  rcases h with h | h <;> simp [laneAt, idleOnly, h]

/-- A 32-bit read of a scalar register that reads exactly returns it (R56, R59). -/
theorem hostAccess_read_scalar {s : State} {o : Nat} (ho : o ≤ 0x0020) (h4 : o % 4 = 0)
    (h : (scalarAt (o / 4)).alwaysExact = true ∨ s.pending = none) :
    hostAccess ⟨o, 4, .read⟩ s = .next { s with readData := scalarValue s (scalarAt (o / 4)) } := by
  have hlane : ∀ j, j < 4 → laneAt s (locate s.dataBytes.toNat (o + j)) =
      .known (byteAt (scalarValue s (scalarAt (o / 4))) j) := fun j hj => by
    rw [locate_scalar_lane _ ho h4 hj, laneAt_scalar_of_exact h]
  have hvalue : BitVec.ofNat 32 (be ((List.range 4).map (byteAt (scalarValue s (scalarAt (o / 4)))))) =
      scalarValue s (scalarAt (o / 4)) := be_byteAt_word _
  rw [hostAccess_read_of_known (legalAccess_scalar _ ho h4) hlane, hvalue]

/-- Settles O36: three registers read exactly at all times, the others with nothing pending. -/
theorem scalarReadsReturnRegister : Obligations.ScalarReadsReturnRegister := by
  intro s
  have always (o : Nat) (ho : o ≤ 0x0020) (h4 : o % 4 = 0) (h : (scalarAt (o / 4)).alwaysExact = true) :=
    hostAccess_read_scalar (s := s) ho h4 (.inl h)
  refine ⟨always 0x0004 (by decide) rfl rfl, always 0x0008 (by decide) rfl rfl, always 0x0020 (by decide) rfl rfl,
    fun hidle => ?_⟩
  have idle (o : Nat) (ho : o ≤ 0x0020) (h4 : o % 4 = 0) := hostAccess_read_scalar ho h4 (.inr hidle)
  exact ⟨idle 0x000C (by decide) rfl, idle 0x0010 (by decide) rfl, idle 0x0014 (by decide) rfl,
    idle 0x0018 (by decide) rfl, idle 0x001C (by decide) rfl⟩

/-- Settles O30: the write is issued or dropped by `pending`, and CMD reads 0. -/
theorem cmdWriteIssues : Obligations.CmdWriteIssues :=
  ⟨fun _ w h => hostAccess_write_cmd_idle h w, fun _ w h => hostAccess_write_cmd_pending h w,
    fun s => hostAccess_read_scalar (s := s) (o := 0x0000) (by decide) rfl (.inl rfl)⟩

/-! ### Array bytes -/

theorem idleOnly_of_idle {s : State} (h : s.pending = none) (b : Byte) : idleOnly s b = .known b := by
  simp [idleOnly, h]

theorem laneAt_data_of_some {s : State} (h : s.pending = none) {i : Nat} {b : Byte} (hb : s.data.read i = some b) :
    laneAt s (.data i) = .known b := by simp [laneAt, h, hb]

theorem laneAt_data_of_none {s : State} (h : s.pending = none) {i : Nat} (hnone : s.data.read i = none) :
    laneAt s (.data i) = .unwritten i := by simp [laneAt, h, hnone]

/-- A pad byte is no unassigned offset. -/
theorem PadOffset.assigned {size o : Nat} (h : PadOffset o) : ¬ UnassignedOffset size o := by
  unfold PadOffset at h
  unfold UnassignedOffset
  omega

/-- A read of pad bytes only returns 0, pending or not. -/
theorem hostAccess_read_pads (s : State) {o n : Nat} (hn : n = 1 ∨ n = 2) (hmod : o % n = 0)
    (h : ∀ j, j < n → PadOffset (o + j)) : hostAccess ⟨o, n, .read⟩ s = .next { s with readData := 0 } := by
  have hlow : ¬ o < 0x0040 := by
    have := h 0 (by omega)
    unfold PadOffset at this
    omega
  exact hostAccess_read_zero ⟨by omega, hmod, fun hlt => absurd hlt hlow, fun j hj => (h j hj).assigned⟩
    fun j hj => laneAt_pad s (h j hj)

/-- Settles O37: each byte lies where the map says, and its lane carries it. -/
theorem byteReadsReturnByte : Obligations.ByteReadsReturnByte := by
  refine ⟨fun s i hidle => ⟨fun hi => ⟨?_, ?_, ?_⟩, fun b hi hb => ?_⟩, fun s o ho => ?_, fun s o ho => ?_⟩
  · exact hostAccess_read_located (by omega) (locate_ksn hi) (by simp) (idleOnly_of_idle hidle _)
  · exact hostAccess_read_located (by omega) (locate_ksi hi) (by simp) (idleOnly_of_idle hidle _)
  · exact hostAccess_read_located (by omega) (locate_reg hi) (by simp) (idleOnly_of_idle hidle _)
  · exact hostAccess_read_located (by omega) (locate_data hi) (by simp) (laneAt_data_of_some hidle hb)
  · refine hostAccess_read_pads s (.inl rfl) (Nat.mod_one o) ?_
    unfold PadOffset
    revert o
    decide
  · have hpads : ∀ o ∈ [0x005A, 0x007A, 0x008A], o % 2 = 0 ∧ ∀ j, j < 2 → PadOffset (o + j) := by
      unfold PadOffset
      decide
    obtain ⟨hmod, hpad⟩ := hpads o ho
    exact hostAccess_read_pads s (.inr rfl) hmod hpad

/-- Settles O40: BDK and K bytes are write-only. -/
theorem keyRegistersReadZero : Obligations.KeyRegistersReadZero := by
  intro s o n hn hmod hrange
  refine hostAccess_read_zero ⟨hn, hmod, by omega, fun j hj => by unfold UnassignedOffset; omega⟩ fun j hj => ?_
  rcases hrange with ⟨hlo, hhi⟩ | ⟨hlo, hhi⟩
  · obtain ⟨i, hi, hoff⟩ : ∃ i < 16, o + j = 0x0040 + i := ⟨o + j - 0x0040, by omega, by omega⟩
    rw [hoff, locate_bdk hi]
    rfl
  · obtain ⟨i, hi, hoff⟩ : ∃ i < 16, o + j = 0x0060 + i := ⟨o + j - 0x0060, by omega, by omega⟩
    rw [hoff, locate_k hi]
    rfl

/-- Settles O42: the read has one lane, which nothing has written. -/
theorem unwrittenDataReadFaults : Obligations.UnwrittenDataReadFaults := by
  intro s i hidle hi hnone
  have hlanes : lanesOf s (0x1000 + i) 1 = [.unwritten i] := by
    change [laneAt s (locate s.dataBytes.toNat (0x1000 + i))] = _
    rw [locate_data hi, laneAt_data_of_none hidle hnone]
  rw [hostAccess_read (legalAccess_byte_of_locate (by omega) (locate_data hi) (by simp)), memRead, hlanes]
  rfl

/-! ### Wide reads and repeated reads -/

theorem not_mem_of_firstUnwritten_eq_none {ls : List Lane} (h : firstUnwritten ls = none) (i : Nat) :
    .unwritten i ∉ ls := by
  induction ls with
  | nil => simp
  | cons l ls ih =>
    cases l with
    | unwritten k => cases h
    | known b => simpa using ih h
    | free => simpa using ih h

/-- With nothing pending, every lane of a read that answers is known. -/
theorem exists_known_lane {s : State} {o n j : Nat} (hidle : s.pending = none)
    (h : firstUnwritten (lanesOf s o n) = none) (hj : j < n) :
    ∃ b, laneAt s (locate s.dataBytes.toNat (o + j)) = .known b := by
  have hmem : laneAt s (locate s.dataBytes.toNat (o + j)) ∈ lanesOf s o n :=
    List.mem_of_getElem? (getElem?_lanesOf s o hj)
  cases hl : laneAt s (locate s.dataBytes.toNat (o + j)) with
  | known b => exact ⟨b, rfl⟩
  | free => exact absurd hl (laneAt_ne_free hidle _)
  | unwritten i => exact absurd (hl ▸ hmem) (not_mem_of_firstUnwritten_eq_none h i)

/-- Byte `j` from the top of what a read returns is what lane `j` carries. -/
theorem readValue_byte {s : State} {o n j : Nat} (h4 : n ≤ 4) {b : Byte}
    (h : (laneBytes (Config.freeRead s.draws) 0 (lanesOf s o n))[j]? = some b) :
    (readValue s o n >>> (8 * (n - 1 - j))).setWidth 8 = b :=
  byte_ofNat_be (by rw [length_laneBytes, length_lanesOf]) h4 h

theorem LegalAccess.width_le {size o n : Nat} (h : LegalAccess size o n) : n ≤ 4 := by
  obtain ⟨hn, -⟩ := h
  omega

/-- Settles O38: a lane of the wide read is known, and the 8-bit read has that lane alone. -/
theorem wideReadIsBigEndian : Obligations.WideReadIsBigEndian := by
  intro s o n t hidle ho h j hj
  obtain ⟨hlegal, hwritten, rfl⟩ := hostAccess_read_next h
  obtain ⟨b, hb⟩ := exists_known_lane hidle hwritten hj
  have hbyte : (readValue s o n >>> (8 * (n - 1 - j))).setWidth 8 = b := by
    refine readValue_byte hlegal.width_le ?_
    rw [getElem?_laneBytes, getElem?_lanesOf s o hj, hb]
    rfl
  obtain ⟨-, -, -, hassigned⟩ := hlegal
  refine ⟨_, hostAccess_read_byte (legalAccess_byte (by omega) (hassigned j hj)) hb, ?_⟩
  rw [hbyte]

/-- What a lane carries does not depend on the model's own fields of reads. -/
theorem laneAt_with_read (s : State) (v : Word) (d : Nat) (l : Loc) :
    laneAt { s with readData := v, draws := d } l = laneAt s l := by
  cases l with
  | scalar r lane => cases r <;> rfl
  | _ => rfl

theorem lanesOf_with_read (s : State) (v : Word) (d o n : Nat) :
    lanesOf { s with readData := v, draws := d } o n = lanesOf s o n :=
  List.map_congr_left fun l _ => laneAt_with_read s v d l

/-- Settles O39: with nothing pending no draw is taken, and the lanes are as before. -/
theorem readsChangeNothing : Obligations.ReadsChangeNothing := by
  intro s t o n h
  obtain ⟨hlegal, hwritten, ht⟩ := hostAccess_read_next h
  refine ⟨by rw [ht], fun hidle => ?_⟩
  rw [anyFree_lanesOf hidle, if_neg Bool.false_ne_true] at ht
  subst ht
  rw [hostAccess_read (s := { s with readData := readValue s o n, draws := s.draws }) hlegal, memRead,
    lanesOf_with_read, hwritten]
  simp only [readValue, lanesOf_with_read, anyFree_lanesOf hidle, Bool.false_eq_true, if_false]

/-! ### Reads while a command is pending (R59) -/

/-- The bytes of a draw, as the statements write them. -/
theorem byteAt_eq_shift (d : Word) {j : Nat} (hj : j < 4) : byteAt d j = (d >>> (8 * (3 - j))).setWidth 8 := by
  interval_cases j <;> rfl

theorem laneAt_scalar_of_pending {s : State} {r : Scalar} (hr : r.alwaysExact = false) (h : s.pending ≠ none)
    (j : Nat) : laneAt s (.scalar r j) = .free := by
  have hp : s.pending.isSome = true := Option.isSome_iff_ne_none.2 h
  simp [laneAt, idleOnly, hr, hp]

/-- A 32-bit read of a scalar register that is unspecified while a command is pending returns the draw. -/
theorem hostAccess_read_scalar_of_pending {s : State} {o : Nat} (h : s.pending ≠ none) (ho : o ≤ 0x0020)
    (h4 : o % 4 = 0) (hr : (scalarAt (o / 4)).alwaysExact = false) :
    hostAccess ⟨o, 4, .read⟩ s = .next { s with readData := Config.freeRead s.draws, draws := s.draws + 1 } := by
  have hlanes : lanesOf s o 4 = [.free, .free, .free, .free] := by
    have hfree : ∀ j, j < 4 → laneAt s (locate s.dataBytes.toNat (o + j)) = .free := fun j hj => by
      rw [locate_scalar_lane _ ho h4 hj, laneAt_scalar_of_pending hr h]
    change [laneAt s (locate _ (o + 0)), laneAt s (locate _ (o + 1)), laneAt s (locate _ (o + 2)),
      laneAt s (locate _ (o + 3))] = _
    rw [hfree 0 (by decide), hfree 1 (by decide), hfree 2 (by decide), hfree 3 (by decide)]
  have hvalue : readValue s o 4 = Config.freeRead s.draws := by
    rw [readValue, hlanes]
    exact be_byteAt_word _
  rw [hostAccess_read (legalAccess_scalar _ ho h4), memRead, hvalue, hlanes]
  rfl

section pending
variable {s : State} {o n : Nat} (h : s.pending ≠ none) (hlegal : LegalAccess s.dataBytes.toNat o n)
  (ho : 0x0040 ≤ o)
include h ho

/-- No lane of an array read is an unwritten byte while a command is pending. -/
theorem firstUnwritten_of_pending : firstUnwritten (lanesOf s o n) = none := by
  refine firstUnwritten_eq_none fun i hi => ?_
  obtain ⟨l, hl, hlane⟩ := List.mem_map.1 hi
  obtain ⟨j, -, rfl⟩ := List.mem_map.1 hl
  obtain ⟨hfree, hzero⟩ := laneAt_pending h (size := s.dataBytes.toNat) (o := o + j) (by omega)
  by_cases hu : UnspecifiedOffset s.dataBytes.toNat (o + j)
  · rw [hfree hu] at hlane
    cases hlane
  · rw [hzero hu] at hlane
    cases hlane

theorem anyFree_of_pending :
    anyFree (lanesOf s o n) = true ↔ ∃ j, j < n ∧ UnspecifiedOffset s.dataBytes.toNat (o + j) := by
  simp only [anyFree, lanesOf, covered, List.map_map, List.any_map, List.any_eq_true, List.mem_range,
    Function.comp_apply, beq_iff_eq]
  refine exists_congr fun j => and_congr_right fun _ => ?_
  obtain ⟨hfree, hzero⟩ := laneAt_pending h (size := s.dataBytes.toNat) (o := o + j) (by omega)
  refine ⟨fun hl => ?_, hfree⟩
  by_contra hu
  rw [hzero hu] at hl
  cases hl

include hlegal

theorem readValue_of_pending {j : Nat} (hj : j < n) :
    (UnspecifiedOffset s.dataBytes.toNat (o + j) → (readValue s o n >>> (8 * (n - 1 - j))).setWidth 8 =
      (Config.freeRead s.draws >>> (8 * (3 - j))).setWidth 8) ∧
    (¬ UnspecifiedOffset s.dataBytes.toNat (o + j) → (readValue s o n >>> (8 * (n - 1 - j))).setWidth 8 = 0#8) := by
  have hwidth := hlegal.width_le
  obtain ⟨hfree, hzero⟩ := laneAt_pending h (size := s.dataBytes.toNat) (o := o + j) (by omega)
  refine ⟨fun hu => readValue_byte hwidth ?_, fun hu => readValue_byte hwidth ?_⟩
  · rw [getElem?_laneBytes, getElem?_lanesOf s o hj, hfree hu, ← byteAt_eq_shift _ (by omega : j < 4)]
    simp
  · rw [getElem?_laneBytes, getElem?_lanesOf s o hj, hzero hu]
    rfl

theorem hostAccess_read_of_pending :
    hostAccess ⟨o, n, .read⟩ s = .next { s with
      readData := readValue s o n
      draws := if anyFree (lanesOf s o n) then s.draws + 1 else s.draws } := by
  rw [hostAccess_read hlegal, memRead, firstUnwritten_of_pending h ho]

end pending

/-- A read of `n` bytes returns no more than `n` bytes. -/
theorem readValue_shift_width (s : State) (o n : Nat) : readValue s o n >>> (8 * n) = 0 := by
  have hlt := be_lt (laneBytes (Config.freeRead s.draws) 0 (lanesOf s o n))
  rw [length_laneBytes, length_lanesOf] at hlt
  apply BitVec.eq_of_toNat_eq
  rw [BitVec.toNat_ushiftRight, readValue, BitVec.toNat_ofNat, Nat.shiftRight_eq_div_pow]
  exact Nat.div_eq_of_lt ((Nat.mod_le _ _).trans_lt hlt)

/-- Settles O46: lane by lane, an array byte is a byte of the draw or 0. -/
theorem pendingReadIsUnspecified : Obligations.PendingReadIsUnspecified := by
  intro s h
  refine ⟨fun o ho => ?_, fun o n hlegal ho => ?_⟩
  · have hscalars : ∀ o ∈ [0x000C, 0x0010, 0x0014, 0x0018, 0x001C],
        o ≤ 0x0020 ∧ o % 4 = 0 ∧ (scalarAt (o / 4)).alwaysExact = false := by decide
    obtain ⟨hle, h4, hr⟩ := hscalars o ho
    exact hostAccess_read_scalar_of_pending h hle h4 hr
  · have hdraws := anyFree_of_pending h ho (n := n)
    refine ⟨_, hostAccess_read_of_pending h hlegal ho, rfl, readValue_shift_width s o n,
      fun j hj => readValue_of_pending h hlegal ho hj, fun hsome => if_pos (hdraws.2 hsome), fun hnone => if_neg ?_⟩
    rw [hdraws]
    rintro ⟨j, hj, hu⟩
    exact hnone j hj hu

end Sys2Proof.Machine

/-! PROOF. Every step keeps the invariant (R23, R25, R29, R30, R35, R37, R39). -/

namespace Sys2Proof.Machine

/-! ### The invariant in two parts: STATUS with `pending`, and the registers -/

/-- The clauses of `Inv` about STATUS, `busy` being whether a command is pending. -/
structure StatusOk (st : Word) (busy : Bool) : Prop where
  busy_iff_pending : Status.busy st = busy
  busy_quiet : Status.busy st = true → Status.done st = false ∧ Status.err st = false ∧ Status.errCode st = 0
  err_iff_code : Status.err st = true ↔ Status.errCode st ≠ 0
  err_done : Status.err st = true → Status.done st = true
  code_known : Status.errCode st ∈ [(0 : BitVec 4), 1, 2, 4, 5, 6]
  reserved : st &&& 0xFFFFF0F0#32 = 0

/-- The other clauses of `Inv`, over the registers they name. -/
structure RegistersOk (ctrl ctr ctLen dataBytes : Word) (tk : TripleKey) (ksi : Ksn) (data : Memory) : Prop where
  ctrl_reserved : ctrl &&& 0xFFFFFFFE#32 = 0
  ctr_small : ctr.toNat < 2 ^ 21
  tk_shape : slice 64 tk 16 = slice 64 tk 0
  ksi_shape : ksi &&& 0x1FFFFF#80 = 0
  ct_len : ctLen.toNat % 8 = 0 ∧ ctLen.toNat ≤ dataBytes.toNat
  data_wf : data.wf = true
  data_within : data.within dataBytes.toNat = true
  legal_build : LegalBuild dataBytes.toNat

/-- `RegistersOk` of the registers of `s`. -/
abbrev State.RegistersOk (s : State) : Prop :=
  Machine.RegistersOk s.ctrl s.ctr s.ctLen s.dataBytes s.tk s.ksi s.data

theorem inv_iff (s : State) : Inv s ↔ StatusOk s.status s.pending.isSome ∧ s.RegistersOk :=
  ⟨fun h => ⟨⟨h.busy_iff_pending, h.busy_quiet, h.err_iff_code, h.err_done, h.code_known, h.status_reserved⟩,
      ⟨h.ctrl_reserved, h.ctr_small, h.tk_shape, h.ksi_shape, h.ct_len, h.data_wf, h.data_within, h.legal_build⟩⟩,
    fun ⟨h, g⟩ => ⟨h.busy_iff_pending, h.busy_quiet, h.err_iff_code, h.err_done, h.code_known, h.reserved,
      g.ctrl_reserved, g.ctr_small, g.tk_shape, g.ksi_shape, g.ct_len, g.data_wf, g.data_within, g.legal_build⟩⟩

/-! ### Each way STATUS is written -/

theorem CmdError.code_known (e : CmdError) : e.code ∈ [(0 : BitVec 4), 1, 2, 4, 5, 6] := by cases e <;> decide

section status
variable {st : Word} {b : Bool}

theorem StatusOk.issue (h : StatusOk st b) : StatusOk (Status.issue st) true where
  busy_iff_pending := Status.busy_issue st
  busy_quiet _ := ⟨Status.done_issue st, Status.err_issue st, Status.errCode_issue st⟩
  err_iff_code := by simp
  err_done := by simp
  code_known := by simp
  reserved := (Status.reserved_issue st).trans h.reserved

theorem StatusOk.complete (h : StatusOk st b) : StatusOk (Status.complete st) false where
  busy_iff_pending := Status.busy_complete st
  busy_quiet := by simp
  err_iff_code := by simp
  err_done := by simp
  code_known := by simp
  reserved := (Status.reserved_complete st).trans h.reserved

theorem StatusOk.fail (h : StatusOk st b) (e : CmdError) : StatusOk (Status.fail st e) false where
  busy_iff_pending := Status.busy_fail st e
  busy_quiet := by simp
  err_iff_code := iff_of_true (Status.err_fail st e) ((Status.errCode_fail st e).symm ▸ e.code_ne_zero)
  err_done _ := Status.done_fail st e
  code_known := (Status.errCode_fail st e).symm ▸ e.code_known
  reserved := (Status.reserved_fail st e).trans h.reserved

theorem StatusOk.setOvr (h : StatusOk st b) : StatusOk (Status.setOvr st) b where
  busy_iff_pending := (Status.busy_setOvr st).trans h.busy_iff_pending
  busy_quiet := by simpa using h.busy_quiet
  err_iff_code := by simpa using h.err_iff_code
  err_done := by simpa using h.err_done
  code_known := (Status.errCode_setOvr st).symm ▸ h.code_known
  reserved := (Status.reserved_setOvr st).trans h.reserved

/-- An acknowledgement clears DONE, ERR and ERRCODE together (R24). -/
theorem StatusOk.hostWrite (h : StatusOk st b) (v : Word) : StatusOk (Status.hostWrite st v) b := by
  have hbusy := (Status.busy_hostWrite st v).trans h.busy_iff_pending
  have hreserved := (Status.reserved_hostWrite st v).trans h.reserved
  have hdone := Status.done_hostWrite st v
  have herr := Status.err_hostWrite st v
  have hcode := Status.errCode_hostWrite st v
  cases hv : v.getLsbD 1 with
  | true =>
    rw [hv] at hdone herr hcode
    simp only [Bool.not_true, Bool.and_false, if_true] at hdone herr hcode
    exact ⟨hbusy, fun _ => ⟨hdone, herr, hcode⟩, by simp [herr, hcode], by simp [herr], by simp [hcode], hreserved⟩
  | false =>
    rw [hv] at hdone herr hcode
    simp only [Bool.not_false, Bool.and_true, Bool.false_eq_true, if_false] at hdone herr hcode
    refine ⟨hbusy, ?_, ?_, ?_, ?_, hreserved⟩
    · rw [Status.busy_hostWrite, hdone, herr, hcode]
      exact h.busy_quiet
    · rw [herr, hcode]
      exact h.err_iff_code
    · rw [herr, hdone]
      exact h.err_done
    · rw [hcode]
      exact h.code_known

end status

/-! ### Reset -/

theorem statusOk_zero : StatusOk 0 false := by constructor <;> decide

/-- The registers after reset, of any legal build. -/
theorem registersOk_zero {dataBytes : Word} (h : LegalBuild dataBytes.toNat) :
    RegistersOk 0 0 0 dataBytes 0 0 [] where
  ctrl_reserved := rfl
  ctr_small := by decide
  tk_shape := rfl
  ksi_shape := rfl
  ct_len := ⟨rfl, Nat.zero_le _⟩
  data_wf := rfl
  data_within := rfl
  legal_build := h

/-- Settles O9: every register is 0, and DATA_BYTES is legal. -/
theorem resetMeetsInvariant : Obligations.ResetMeetsInvariant :=
  (inv_iff _).2 ⟨statusOk_zero, registersOk_zero (by unfold LegalBuild; decide)⟩

theorem inv_resetBlock {s : State} (h : Inv s) : Inv (resetBlock s) :=
  (inv_iff _).2 ⟨statusOk_zero, registersOk_zero h.legal_build⟩

/-! ### Host accesses -/

theorem inv_memWrite {o n : Nat} {v : Word} {s : State} (h : Inv s) : Inv (memWrite o n v s) := by
  obtain ⟨hstatus, hregs⟩ := (inv_iff s).1 h
  refine memWrite_by_class (P := Inv) (fun _ => ?status) (fun _ => ?ctrl) h ?dropped (fun _ _ => ?issued) ?bdkLen
    ?ksnLen ?ptLen ?bytes
  all_goals rw [inv_iff]
  case status => exact ⟨hstatus.hostWrite v, hregs⟩
  case ctrl =>
    have hctrl : (v &&& 0x00000001#32) &&& 0xFFFFFFFE#32 = 0 := by
      rw [BitVec.and_assoc, show (0x00000001#32 &&& 0xFFFFFFFE#32) = 0#32 by decide, BitVec.and_zero]
      rfl
    exact ⟨hstatus, { hregs with ctrl_reserved := hctrl }⟩
  case dropped => exact ⟨hstatus.setOvr, hregs⟩
  case issued => exact ⟨hstatus.issue, hregs⟩
  case bdkLen | ksnLen | ptLen => exact ⟨hstatus, hregs⟩
  case bytes =>
    obtain ⟨hwf, hwithin⟩ := writeBytes_keeps_data o n v hregs.data_wf hregs.data_within
    rw [writeBytes_eq]
    exact ⟨hstatus, { hregs with data_wf := hwf, data_within := hwithin }⟩

theorem inv_hostAccess {a : Access} {s t : State} (h : Inv s) (ht : hostAccess a s = .next t) : Inv t := by
  rcases hostAccess_cases a s with ⟨-, heq⟩ | ⟨-, -, heq⟩ | ⟨v, -, -, heq⟩ <;> rw [heq] at ht
  · cases ht
  · rw [(memRead_next ht).2]
    exact (inv_iff _).2 ((inv_iff s).1 h)
  · obtain rfl := Host.Outcome.next.inj ht
    exact inv_memWrite h

theorem inv_busCycle {addr n : Nat} {op : AccessOp} {s t : State} (h : Inv s) (ht : busCycle addr n op s = .next t) :
    Inv t := by
  rcases busCycle_cases addr n op s with heq | ⟨o, -, heq⟩ <;> rw [heq] at ht
  · obtain rfl := Host.Outcome.next.inj ht
    exact h
  · exact inv_hostAccess h ht

/-! ### The engine -/

theorem inv_raiseCmdError {s : State} (h : Inv s) (e : CmdError) : Inv (raiseCmdError e s) := by
  obtain ⟨hstatus, hregs⟩ := (inv_iff s).1 h
  exact (inv_iff _).2 ⟨hstatus.fail e, hregs⟩

/-- A completion needs only that the results respect the registers' clauses. -/
theorem inv_completeCommand {s u : State} (h : Inv s) (hstatus : u.status = s.status) (hregs : u.RegistersOk) :
    Inv (completeCommand u) := by
  obtain ⟨hok, -⟩ := (inv_iff s).1 h
  exact (inv_iff _).2 ⟨(hstatus.symm ▸ hok : StatusOk u.status _).complete, hregs⟩

theorem extractKSI_shape (ksn : Ksn) : extractKSI ksn &&& 0x1FFFFF#80 = 0 := by
  rw [extractKSI_eq_and, BitVec.and_assoc]
  exact BitVec.and_zero

theorem toNat_extractCounter_lt (ksn : Ksn) : (BitVec.ofNat 32 (extractCounter ksn)).toNat < 2 ^ 21 := by
  rw [extractCounter_eq_mod, BitVec.toNat_ofNat]
  omega

theorem normalizeKey_shape (key : Key) : slice 64 (normalizeKey key) 16 = slice 64 (normalizeKey key) 0 := by
  apply BitVec.eq_of_getLsbD_eq
  intro j hj
  rw [getLsbD_slice, getLsbD_slice, getLsbD_normalizeKey key (by omega), getLsbD_normalizeKey key (by omega)]
  congr 2
  omega

/-- An in-place encryption fills DATA up to a multiple of 8 within DATA (R181). -/
theorem registersOk_encrypted {s : State} (h : s.RegistersOk) (hp : s.ptLen.toNat ≤ s.dataBytes.toNat)
    {pt : List Byte} (hpt : s.data.readRange 0 s.ptLen.toNat = .ok pt) (tk : TripleKey) :
    RegistersOk s.ctrl s.ctr (BitVec.ofNat 32 (ceil8 s.ptLen.toNat)) s.dataBytes s.tk s.ksi
      (s.data.writeRange 0 (ecbEncrypt tk pt)) := by
  obtain ⟨hlo, hhi, h8⟩ := h.legal_build
  obtain ⟨hlen, -⟩ := Memory.readRange_ok hpt
  have hceil : ceil8 s.ptLen.toNat ≤ s.dataBytes.toNat := ceil8_le hp h8
  have hct : (BitVec.ofNat 32 (ceil8 s.ptLen.toNat)).toNat = ceil8 s.ptLen.toNat := by
    rw [BitVec.toNat_ofNat]
    omega
  have hlength : 0 + (ecbEncrypt tk pt).length ≤ s.dataBytes.toNat := by rwa [length_ecbEncrypt, hlen, Nat.zero_add]
  exact { h with
    ct_len := by rw [hct]; exact ⟨ceil8_mod _, hceil⟩
    data_wf := Memory.wf_writeRange _ _ h.data_wf
    data_within := Memory.within_writeRange _ _ h.data_within hlength }

/-- DATA after ZEROIZE. -/
theorem registersOk_zeroized {s : State} (h : s.RegistersOk) :
    RegistersOk s.ctrl 0 0 s.dataBytes 0 0 (Memory.zerosFrom 0 s.dataBytes.toNat) :=
  { registersOk_zero h.legal_build with
    ctrl_reserved := h.ctrl_reserved
    data_wf := Memory.wf_zerosFrom _
    data_within := by simpa using Memory.within_zerosFrom 0 s.dataBytes.toNat }

theorem inv_exec {i : Instr} {s t : State} (h : Inv s) (ht : exec i s = .next t) : Inv t := by
  obtain ⟨-, hregs⟩ := (inv_iff s).1 h
  cases i with
  | nop => rw [execNop_next ht]; exact inv_completeCommand h rfl hregs
  | extksi =>
    rcases execExtksi_next ht with ⟨-, rfl⟩ | ⟨-, rfl⟩
    · exact inv_raiseCmdError h _
    · exact inv_completeCommand h rfl { hregs with ksi_shape := extractKSI_shape s.ksn }
  | extctr =>
    rcases execExtctr_next ht with ⟨-, rfl⟩ | ⟨-, rfl⟩
    · exact inv_raiseCmdError h _
    · exact inv_completeCommand h rfl { hregs with ctr_small := toNat_extractCounter_lt s.ksn }
  | bldreg p =>
    rcases execBldreg_next ht with ⟨-, rfl⟩ | ⟨-, rfl⟩
    · exact inv_raiseCmdError h _
    · exact inv_completeCommand h rfl hregs
  | ipek =>
    rcases execIpek_next ht with ⟨-, rfl⟩ | ⟨-, -, rfl⟩ | ⟨-, -, rfl⟩
    · exact inv_raiseCmdError h _
    · exact inv_raiseCmdError h _
    · exact inv_completeCommand h rfl hregs
  | nrkgp => rw [execNrkgp_next ht]; exact inv_completeCommand h rfl hregs
  | walk =>
    rcases execWalk_next ht with ⟨-, rfl⟩ | ⟨-, rfl⟩
    · exact inv_raiseCmdError h _
    · exact inv_completeCommand h rfl hregs
  | variant => rw [execVariant_next ht]; exact inv_completeCommand h rfl hregs
  | norm =>
    rw [execNorm_next ht]
    exact inv_completeCommand h rfl { hregs with tk_shape := normalizeKey_shape s.k }
  | ecb =>
    rcases execEcb_next ht with ⟨-, rfl⟩ | ⟨hp, hecb⟩
    · exact inv_raiseCmdError h _
    · obtain ⟨pt, hpt, rfl⟩ := ecbInPlace_next hecb
      exact inv_completeCommand h rfl (registersOk_encrypted hregs hp hpt s.tk)
  | encrypt =>
    rcases execEncrypt_next ht with ⟨-, rfl⟩ | ⟨-, -, rfl⟩ | ⟨-, -, -, rfl⟩ | ⟨-, -, hp, hecb⟩
    · exact inv_raiseCmdError h _
    · exact inv_raiseCmdError h _
    · exact inv_raiseCmdError h _
    · obtain ⟨pt, hpt, rfl⟩ := ecbInPlace_next hecb
      have hcleared : (clearKeys s).RegistersOk :=
        { hregs with tk_shape := (registersOk_zero hregs.legal_build).tk_shape }
      exact inv_completeCommand h rfl (registersOk_encrypted hcleared hp hpt (transactionKey s.bdk s.ksn))
  | zeroize => rw [execZeroize_next ht]; exact inv_completeCommand h rfl (registersOk_zeroized (s := s) hregs)

theorem inv_engineTurn {s t : State} (h : Inv s) (ht : engineTurn s = .next t) : Inv t := by
  rcases engineTurn_cases s with ⟨-, heq⟩ | ⟨w, e, -, -, heq⟩ | ⟨w, i, -, -, heq⟩ <;> rw [heq] at ht
  · obtain rfl := Host.Outcome.next.inj ht
    exact h
  · obtain rfl := Host.Outcome.next.inj ht
    exact inv_raiseCmdError h _
  · exact inv_exec h ht

theorem inv_handleEvent {e : Event} {s t : State} (h : Inv s) (ht : handleEvent e s = .next t) : Inv t := by
  cases e with
  | engine => exact inv_engineTurn h ht
  | access a => exact inv_hostAccess h ht
  | busCycle addr width op => exact inv_busCycle (addr := addr) (n := width) (op := op) h ht
  | reset =>
    obtain rfl := Host.Outcome.next.inj ht
    exact inv_resetBlock h
  | powerLoss => cases ht

/-- Settles O10: each event keeps the invariant, and the schedule is in none of its clauses. -/
theorem stepKeepsInvariant : Obligations.StepKeepsInvariant := by
  intro s t h ht
  rcases step_cases s with ⟨-, heq⟩ | ⟨e, rest, -, heq⟩ <;> rw [heq] at ht
  · exact inv_engineTurn h ht
  · have hrest : Inv { s with schedule := rest } := (inv_iff _).2 ((inv_iff s).1 h)
    exact inv_handleEvent hrest ht

end Sys2Proof.Machine

/-! PROOF. BDK, K and TK reach nothing else but through ciphertext (R42, R230). -/

namespace Sys2Proof.Machine

/-! ### Two runs side by side -/

/-- Two answers that stop alike, or go on in states that differ at most in the keys. -/
def SameAnswer (r r' : Result) : Prop :=
  (∃ f, r = .fault f ∧ r' = .fault f) ∨ ∃ s t, r = .next s ∧ r' = .next t ∧ SameButKeys s t

theorem sameButKeys_with_keys (s : State) (bdk k : Key) (tk : TripleKey) :
    SameButKeys s { s with bdk := bdk, k := k, tk := tk } := rfl

theorem SameAnswer.next {s t : State} (h : SameButKeys s t) : SameAnswer (.next s) (.next t) :=
  .inr ⟨s, t, rfl, rfl, h⟩

theorem SameAnswer.fault (f : Fault) : SameAnswer (.fault f) (.fault f) := .inl ⟨f, rfl, rfl⟩

/-- A test that both runs pass or fail together. -/
theorem SameAnswer.ite {c : Prop} [Decidable c] {r r' q q' : Result} (h : SameAnswer r r') (h' : SameAnswer q q') :
    SameAnswer (if c then r else q) (if c then r' else q') := by
  by_cases hc : c
  · rwa [if_pos hc, if_pos hc]
  · rwa [if_neg hc, if_neg hc]

/-- An operation keeps the relation where it keeps it against every other value of the keys. -/
theorem SameButKeys.induction {motive : State → State → Prop}
    (h : ∀ s bdk k tk, motive s { s with bdk := bdk, k := k, tk := tk }) {s t : State} (hst : SameButKeys s t) :
    motive s t := by
  rw [hst]
  exact h s t.bdk t.k t.tk

theorem SameButKeys.raiseCmdError {s t : State} (h : SameButKeys s t) (e : CmdError) :
    SameButKeys (raiseCmdError e s) (raiseCmdError e t) :=
  h.induction (motive := fun s t => SameButKeys (Machine.raiseCmdError e s) (Machine.raiseCmdError e t))
    fun _ _ _ _ => rfl

theorem SameButKeys.completeCommand {s t : State} (h : SameButKeys s t) :
    SameButKeys (completeCommand s) (completeCommand t) :=
  h.induction (motive := fun s t => SameButKeys (Machine.completeCommand s) (Machine.completeCommand t))
    fun _ _ _ _ => rfl

/-! ### Reads -/

theorem laneAt_with_keys (s : State) (bdk k : Key) (tk : TripleKey) (l : Loc) :
    laneAt { s with bdk := bdk, k := k, tk := tk } l = laneAt s l := by
  cases l with
  | scalar r lane => cases r <;> rfl
  | _ => rfl

theorem lanesOf_with_keys (s : State) (bdk k : Key) (tk : TripleKey) (o n : Nat) :
    lanesOf { s with bdk := bdk, k := k, tk := tk } o n = lanesOf s o n :=
  List.map_congr_left fun l _ => laneAt_with_keys s bdk k tk l

theorem sameAnswer_memRead (o n : Nat) (s : State) (bdk k : Key) (tk : TripleKey) :
    SameAnswer (memRead o n s) (memRead o n { s with bdk := bdk, k := k, tk := tk }) := by
  have hlanes := lanesOf_with_keys s bdk k tk o n
  have hvalue : readValue { s with bdk := bdk, k := k, tk := tk } o n = readValue s o n := by
    rw [readValue, hlanes, readValue]
  simp only [memRead, hlanes, hvalue]
  cases firstUnwritten (lanesOf s o n) with
  | some i => exact .fault _
  | none => exact .next (sameButKeys_with_keys _ bdk k tk)

/-! ### Writes -/

theorem SameButKeys.writeByte {s t : State} (h : SameButKeys s t) (l : Loc) (b : Byte) :
    SameButKeys (writeByte s l b) (writeByte t l b) :=
  h.induction (motive := fun s t => SameButKeys (Machine.writeByte s l b) (Machine.writeByte t l b))
    fun _ _ _ _ => by cases l <;> rfl

theorem SameButKeys.foldl_writeByte {s t : State} (h : SameButKeys s t) (f : Nat → Loc) (g : Nat → Byte)
    (ls : List Nat) :
    SameButKeys (ls.foldl (fun u j => Machine.writeByte u (f j) (g j)) s)
      (ls.foldl (fun u j => Machine.writeByte u (f j) (g j)) t) := by
  induction ls generalizing s t with
  | nil => exact h
  | cons j ls ih => exact ih (h.writeByte (f j) (g j))

theorem SameButKeys.ite {c : Prop} [Decidable c] {s s' t t' : State} (h : SameButKeys s s') (h' : SameButKeys t t') :
    SameButKeys (if c then s else t) (if c then s' else t') := by
  by_cases hc : c
  · rwa [if_pos hc, if_pos hc]
  · rwa [if_neg hc, if_neg hc]

/-- A write takes the same one of `memWrite`'s branches in both runs, and only the last writes keys. -/
theorem sameButKeys_memWrite (o n : Nat) (v : Word) (s : State) (bdk k : Key) (tk : TripleKey) :
    SameButKeys (memWrite o n v s) (memWrite o n v { s with bdk := bdk, k := k, tk := tk }) := by
  have hbytes : SameButKeys (writeBytes o n v s) (writeBytes o n v { s with bdk := bdk, k := k, tk := tk }) :=
    (sameButKeys_with_keys s bdk k tk).foldl_writeByte _ _ _
  exact .ite rfl (.ite rfl (.ite rfl (.ite rfl (.ite rfl (.ite rfl (.ite rfl (.ite rfl hbytes)))))))

theorem SameButKeys.hostAccess {s t : State} (h : SameButKeys s t) (a : Access) :
    SameAnswer (hostAccess a s) (hostAccess a t) := by
  refine h.induction (motive := fun s t => SameAnswer (Machine.hostAccess a s) (Machine.hostAccess a t))
    fun s bdk k tk => ?_
  refine SameAnswer.ite (.fault _) ?_
  cases a.op with
  | read => exact sameAnswer_memRead ..
  | write v => exact .next (sameButKeys_memWrite ..)

/-- Settles O47: reads and writes branch alike in both runs. -/
theorem hostReadsNeverShowKeys : Obligations.HostReadsNeverShowKeys := fun _ _ a h => h.hostAccess a

theorem SameButKeys.busCycle {s t : State} (h : SameButKeys s t) (addr n : Nat) (op : AccessOp) :
    SameAnswer (busCycle addr n op s) (busCycle addr n op t) := by
  cases hoff : offsetOf addr with
  | none =>
    rw [busCycle_of_offsetOf_none hoff, busCycle_of_offsetOf_none hoff]
    exact .next h
  | some o =>
    rw [busCycle_of_offsetOf_some hoff, busCycle_of_offsetOf_some hoff]
    exact h.hostAccess _

/-! ### Commands -/

/-- A command but ECB and ENCRYPT writes from the keys only BDK, K and TK. -/
theorem SameButKeys.exec {s t : State} (h : SameButKeys s t) {i : Instr} (hecb : i ≠ .ecb) (henc : i ≠ .encrypt) :
    SameAnswer (exec i s) (exec i t) := by
  refine h.induction (motive := fun s t => SameAnswer (Machine.exec i s) (Machine.exec i t)) fun s bdk k tk => ?_
  have hfail (e : CmdError) := SameAnswer.next ((sameButKeys_with_keys s bdk k tk).raiseCmdError e)
  cases i with
  | nop | nrkgp | variant | norm | zeroize => exact .next rfl
  | extksi | extctr | walk => exact (hfail .ksnLen).ite (.next rfl)
  | bldreg p => exact (hfail .badPos).ite (.next rfl)
  | ipek => exact (hfail .bdkLen).ite ((hfail .ksnLen).ite (.next rfl))
  | ecb => exact absurd rfl hecb
  | encrypt => exact absurd rfl henc

theorem SameButKeys.pending_eq {s t : State} (h : SameButKeys s t) : t.pending = s.pending :=
  h.induction (motive := fun s t => t.pending = s.pending) fun _ _ _ _ => rfl

theorem SameButKeys.schedule_eq {s t : State} (h : SameButKeys s t) : t.schedule = s.schedule :=
  h.induction (motive := fun s t => t.schedule = s.schedule) fun _ _ _ _ => rfl

theorem SameButKeys.engineTurn {s t : State} (h : SameButKeys s t)
    (hcmd : ∀ w, s.pending = some w → decodeWord w ≠ .ok .ecb ∧ decodeWord w ≠ .ok .encrypt) :
    SameAnswer (engineTurn s) (engineTurn t) := by
  cases hp : s.pending with
  | none =>
    rw [engineTurn_of_idle hp, engineTurn_of_idle (h.pending_eq.trans hp)]
    exact .next h
  | some w =>
    have hpt : t.pending = some w := h.pending_eq.trans hp
    cases hd : decodeWord w with
    | error e =>
      rw [engineTurn_of_decodeWord_error hp hd, engineTurn_of_decodeWord_error hpt hd]
      exact .next (h.raiseCmdError _)
    | ok i =>
      obtain ⟨hecb, henc⟩ := hcmd w hp
      rw [engineTurn_of_decodeWord_ok hp hd, engineTurn_of_decodeWord_ok hpt hd]
      exact h.exec (fun hi => hecb (hi ▸ hd)) (fun hi => henc (hi ▸ hd))

theorem SameButKeys.handleEvent {s t : State} (h : SameButKeys s t) {e : Event}
    (hcmd : e = .engine → ∀ w, s.pending = some w → decodeWord w ≠ .ok .ecb ∧ decodeWord w ≠ .ok .encrypt) :
    SameAnswer (handleEvent e s) (handleEvent e t) := by
  cases e with
  | engine => exact h.engineTurn (hcmd rfl)
  | access a => exact h.hostAccess a
  | busCycle addr width op => exact h.busCycle addr width op
  | reset =>
    exact .next (h.induction (motive := fun s t => SameButKeys (resetBlock s) (resetBlock t)) fun _ _ _ _ => rfl)
  | powerLoss => exact .fault _

theorem SameButKeys.with_schedule {s t : State} (h : SameButKeys s t) (rest : List Event) :
    SameButKeys { s with schedule := rest } { t with schedule := rest } :=
  h.induction (motive := fun s t => SameButKeys { s with schedule := rest } { t with schedule := rest })
    fun _ _ _ _ => rfl

/-- Settles O48: the same event moves in both runs, and keeps the relation. -/
theorem onlyCiphertextCarriesKeys : Obligations.OnlyCiphertextCarriesKeys := by
  intro s t h hcmd
  cases hs : s.schedule with
  | nil =>
    rw [step_of_schedule_nil hs, step_of_schedule_nil (h.schedule_eq.trans hs)]
    exact h.engineTurn (hcmd (.inl hs))
  | cons e rest =>
    rw [step_of_schedule_cons hs, step_of_schedule_cons (h.schedule_eq.trans hs)]
    refine (h.with_schedule rest).handleEvent fun he => ?_
    exact hcmd (.inr ⟨rest, he ▸ hs⟩)

end Sys2Proof.Machine

/-! PROOF. OVR, the interrupt line, and NOP (R23, R40, R200, R221). -/

namespace Sys2Proof.Machine

/-! ### What can take a flag from 1 to 0 -/

/-- A host access that takes a flag of STATUS and CTRL from 1 to 0 is a write. -/
theorem hostAccess_falls {f : State → Bool} (hread : ∀ s v d, f { s with readData := v, draws := d } = f s)
    {s t : State} {a : Access} (h : hostAccess a s = .next t) (hs : f s = true) (ht : f t = false) :
    ∃ v, a = ⟨a.offset, a.width, .write v⟩ ∧ LegalAccess s.dataBytes.toNat a.offset a.width ∧
      f (memWrite a.offset a.width v s) = false := by
  rcases hostAccess_cases a s with ⟨-, heq⟩ | ⟨-, -, heq⟩ | ⟨v, hlegal, hop, heq⟩ <;> rw [heq] at h
  · cases h
  · rw [(memRead_next h).2, hread, hs] at ht
    cases ht
  · obtain rfl := Host.Outcome.next.inj h
    exact ⟨v, by rw [← hop], (busError_eq_false_iff _ _ _).1 hlegal, ht⟩

/-- A step that takes a flag from 1 to 0, where the engine never does, is a reset or a host access that does. -/
theorem step_falls {f : State → Bool} {Q : State → Access → Prop}
    (hschedule : ∀ s rest, f { s with schedule := rest } = f s)
    (hengine : ∀ s t, engineTurn s = .next t → f s = true → f t = true)
    (hhost : ∀ s t a, hostAccess a s = .next t → f s = true → f t = false → Q s a)
    {s t : State} (h : step s = .next t) (hs : f s = true) (ht : f t = false) :
    ∃ e rest, s.schedule = e :: rest ∧ (e = .reset ∨ ∃ a, Q { s with schedule := rest } a ∧
      (e = .access a ∨ e = .busCycle (Config.windowBase + a.offset) a.width a.op)) := by
  have engine_keeps : ∀ s, engineTurn s = .next t → f s = true → False := fun s hturn hs => by
    rw [hengine s t hturn hs] at ht
    cases ht
  rcases step_cases s with ⟨-, heq⟩ | ⟨e, rest, hcons, heq⟩ <;> rw [heq] at h
  · exact (engine_keeps s h hs).elim
  · have hs' : f { s with schedule := rest } = true := (hschedule s rest).trans hs
    refine ⟨e, rest, hcons, ?_⟩
    cases e with
    | engine => exact (engine_keeps _ h hs').elim
    | access a => exact .inr ⟨a, hhost _ t a h hs' ht, .inl rfl⟩
    | busCycle addr width op =>
      rcases busCycle_cases addr width op { s with schedule := rest } with hout | ⟨o, haddr, hin⟩
      · obtain rfl := Host.Outcome.next.inj (hout.symm.trans h)
        rw [hs'] at ht
        cases ht
      · exact .inr ⟨⟨o, width, op⟩, hhost _ t _ (hin.symm.trans h) hs' ht, .inr (by rw [haddr])⟩
    | reset => exact .inl rfl
    | powerLoss => cases h

theorem LegalAccess.width_of_scalar {size o n : Nat} (h : LegalAccess size o n) (ho : o < 0x0040) : n = 4 := by
  obtain ⟨-, -, hnarrow, -⟩ := h
  exact hnarrow ho

theorem writeBytes_status (o n : Nat) (v : Word) (s : State) : (writeBytes o n v s).status = s.status := by
  rw [writeBytes_eq]

theorem writeBytes_ctrl (o n : Nat) (v : Word) (s : State) : (writeBytes o n v s).ctrl = s.ctrl := by
  rw [writeBytes_eq]

/-! ### OVR (R23) -/

theorem memWrite_clears_ovr {o n : Nat} {v : Word} {s : State} (hs : Status.ovr s.status = true)
    (ht : Status.ovr (memWrite o n v s).status = false) : o = 0x0004 ∧ v.getLsbD 3 = true := by
  revert ht
  refine memWrite_by_class (P := fun t => Status.ovr t.status = false → o = 0x0004 ∧ v.getLsbD 3 = true)
    (fun ho ht => ⟨ho, ?_⟩) ?_ ?_ ?_ ?_ ?_ ?_ ?_ ?_
  · simpa [hs, -BitVec.getLsbD_eq_getElem] using ht
  all_goals simp [hs, writeBytes_status]

theorem hostAccess_clears_ovr (s t : State) (a : Access) (h : hostAccess a s = .next t)
    (hs : Status.ovr s.status = true) (ht : Status.ovr t.status = false) :
    ∃ v : Word, a = ⟨0x0004, 4, .write v⟩ ∧ v.getLsbD 3 = true := by
  obtain ⟨v, ha, hlegal, hfalls⟩ :=
    hostAccess_falls (f := fun s => Status.ovr s.status) (fun _ _ _ => rfl) h hs ht
  obtain ⟨ho, hv⟩ := memWrite_clears_ovr hs hfalls
  rw [hlegal.width_of_scalar (by omega), ho] at ha
  exact ⟨v, ha, hv⟩

theorem engineTurn_ovr (s t : State) (h : engineTurn s = .next t) (hs : Status.ovr s.status = true) :
    Status.ovr t.status = true := by
  rcases engineTurn_cases s with ⟨-, heq⟩ | ⟨w, e, -, -, heq⟩ | ⟨w, i, -, -, heq⟩ <;> rw [heq] at h
  · obtain rfl := Host.Outcome.next.inj h
    exact hs
  · obtain rfl := Host.Outcome.next.inj h
    exact (Status.ovr_fail _ _).trans hs
  · obtain ⟨-, -, -, -, hovr, -⟩ := everyCompletionSetsDone i s t h
    exact hovr.trans hs

/-- Settles O49: the engine keeps OVR, and of the accesses only that write clears it. -/
theorem ovrClearedOnlyByHostOrReset : Obligations.OvrClearedOnlyByHostOrReset := by
  intro s t h hs ht
  obtain ⟨e, rest, hcons, hevent⟩ := step_falls (f := fun s => Status.ovr s.status)
    (Q := fun _ a => ∃ v : Word, a = ⟨0x0004, 4, .write v⟩ ∧ v.getLsbD 3 = true)
    (fun _ _ => rfl) engineTurn_ovr hostAccess_clears_ovr h hs ht
  refine ⟨e, rest, hcons, ?_⟩
  rcases hevent with hreset | ⟨a, ⟨v, rfl, hv⟩, haccess | hcycle⟩
  · exact .inl hreset
  · exact .inr (.inl ⟨v, haccess, hv⟩)
  · exact .inr (.inr ⟨v, hcycle, hv⟩)

/-! ### The interrupt line (R40, R221) -/

theorem irq_eq (s : State) : irq s = (s.ctrl.getLsbD 0 && s.status.getLsbD 1) := rfl

theorem irq_eq_true_iff (s : State) : irq s = true ↔ s.ctrl.getLsbD 0 = true ∧ Status.done s.status = true := by
  rw [irq, Bool.and_eq_true, interruptEnabled]

/-- After a completion DONE is 1, so that the line is CTRL.IE. -/
theorem irq_of_exec {i : Instr} {s t : State} (h : exec i s = .next t) : irq t = s.ctrl.getLsbD 0 := by
  obtain ⟨-, -, hdone, -⟩ := everyCompletionSetsDone i s t h
  obtain ⟨-, -, -, -, -, -, -, -, -, -, -, -, hctrl, -⟩ := engineWritesColumn i s t h
  rw [irq, hdone, Bool.and_true, interruptEnabled, hctrl]

theorem irq_of_done_clear {s : State} (h : Status.done s.status = false) : irq s = false := by
  rw [irq, h, Bool.and_false]

/-- Settles O51: the line follows DONE, which each of the three writes. -/
theorem irqRaisedAndCleared : Obligations.IrqRaisedAndCleared := by
  refine ⟨fun i s t h => irq_of_exec h, fun s t v hv h => ?_, fun s t w hidle h => ?_⟩
  · obtain rfl := Host.Outcome.next.inj ((hostAccess_write_status s v).symm.trans h)
    refine irq_of_done_clear ?_
    rw [Status.done_hostWrite, hv]
    exact Bool.and_false _
  · obtain rfl := Host.Outcome.next.inj ((hostAccess_write_cmd_idle hidle w).symm.trans h)
    exact irq_of_done_clear (Status.done_issue _)

/-- The writes that take the line from 1 to 0 (R221). -/
def ClearsIrq (s : State) (o : Nat) (v : Word) : Prop :=
  (o = 0x0000 ∧ s.pending = none) ∨ (o = 0x0004 ∧ v.getLsbD 1 = true) ∨ (o = 0x0008 ∧ v.getLsbD 0 = false)

theorem ClearsIrq.offset_lt {s : State} {o : Nat} {v : Word} (h : ClearsIrq s o v) : o < 0x0040 := by
  unfold ClearsIrq at h
  omega

theorem memWrite_clears_irq {o n : Nat} {v : Word} {s : State} (hs : irq s = true)
    (ht : irq (memWrite o n v s) = false) : ClearsIrq s o v := by
  obtain ⟨hie, hdone⟩ := (irq_eq_true_iff s).1 hs
  revert ht
  refine memWrite_by_class (P := fun t => irq t = false → ClearsIrq s o v) (fun ho ht => .inr (.inl ⟨ho, ?_⟩))
    (fun ho ht => .inr (.inr ⟨ho, ?_⟩)) ?_ ?_ (fun ho hidle _ => .inl ⟨ho, hidle⟩) ?_ ?_ ?_ ?_
  · simpa [irq, interruptEnabled, hie, hdone, -BitVec.getLsbD_eq_getElem] using ht
  · simpa [irq, interruptEnabled, hdone] using ht
  all_goals
    intro ht
    simp [irq, interruptEnabled, hie, hdone, writeBytes_status, writeBytes_ctrl, -BitVec.getLsbD_eq_getElem] at ht

theorem hostAccess_clears_irq (s t : State) (a : Access) (h : hostAccess a s = .next t) (hs : irq s = true)
    (ht : irq t = false) : ∃ (o : Nat) (v : Word), a = ⟨o, 4, .write v⟩ ∧ ClearsIrq s o v := by
  obtain ⟨v, ha, hlegal, hfalls⟩ := hostAccess_falls (f := irq) (fun _ _ _ => rfl) h hs ht
  have hclears := memWrite_clears_irq hs hfalls
  rw [hlegal.width_of_scalar hclears.offset_lt] at ha
  exact ⟨a.offset, v, ha, hclears⟩

theorem engineTurn_irq (s t : State) (h : engineTurn s = .next t) (hs : irq s = true) : irq t = true := by
  obtain ⟨hie, -⟩ := (irq_eq_true_iff s).1 hs
  rcases engineTurn_cases s with ⟨-, heq⟩ | ⟨w, e, -, -, heq⟩ | ⟨w, i, -, -, heq⟩ <;> rw [heq] at h
  · obtain rfl := Host.Outcome.next.inj h
    exact hs
  · obtain rfl := Host.Outcome.next.inj h
    exact (irq_eq_true_iff _).2 ⟨hie, Status.done_fail _ _⟩
  · rw [irq_of_exec h, hie]

/-- Settles O50: the engine keeps the line, and of the accesses only the listed writes clear it. -/
theorem irqLevelStaysUntilCleared : Obligations.IrqLevelStaysUntilCleared := by
  refine ⟨irq_eq, fun s t h hs ht => ?_⟩
  obtain ⟨e, rest, hcons, hevent⟩ := step_falls (f := irq)
    (Q := fun s a => ∃ (o : Nat) (v : Word), a = ⟨o, 4, .write v⟩ ∧ ClearsIrq s o v)
    (fun _ _ => rfl) engineTurn_irq hostAccess_clears_irq h hs ht
  refine ⟨e, rest, hcons, hevent.imp_right ?_⟩
  rintro ⟨a, ⟨o, v, rfl, hclears⟩, he⟩
  exact ⟨o, v, he, hclears⟩

/-! ### NOP (R200) -/

theorem exec_nop (s : State) : exec .nop s = .next (completeCommand s) := rfl

/-- Of the words with OP 0, only 0 is legal. -/
theorem illegalWord_of_op_zero {w : Word} (hop : opField w = 0#8) (hw : w ≠ 0) : IllegalWord w := by
  by_contra hlegal
  have hrsvd : rsvdField w = 0#19 := by
    by_contra hne
    exact hlegal (.inl hne)
  have hpos : posField w = 0#5 := by
    by_contra hne
    exact hlegal (.inr (.inr ⟨hne, fun h3 => absurd (hop.symm.trans h3) (by decide)⟩))
  have hzero := fields_append w
  rw [hrsvd, hpos, hop] at hzero
  exact hw hzero.symm

theorem decodeWord_eq_nop_iff (w : Word) : decodeWord w = .ok .nop ↔ w = 0x00000000 := by
  rw [decodeWord_eq_ok_iff_encode]
  exact ⟨fun h => h.2.symm, fun h => ⟨rfl, h.symm⟩⟩

/-- Settles O12: a word with OP 0 is 0 or illegal, and the run from reset is evaluated. -/
theorem nopCommand : Obligations.NopCommand := by
  refine ⟨decodeWord_eq_nop_iff, fun w => illegalWord_of_op_zero, exec_nop, fun s t hie h => (irq_of_exec h).trans hie,
    fun s w hw => hostAccess_write_cmd_pending (by simp [hw]) 0, rfl⟩

end Sys2Proof.Machine
